-- ==== Sys2Proof/Word.lean ====
section
/-! DEFINITION. The unsigned words of the machine (spec 00_scope R7, R9): every register, address and byte value is unsigned. -/

namespace Sys2Proof

/-- One byte: the width of a general register and of one memory access (R7). -/
abbrev Byte := BitVec 8

/-- A 16-bit value: an address, `pc`, `sp` or a register pair (R7). -/
abbrev Word := BitVec 16

/-- A 64-bit running total of the harness (R7, R33). -/
abbrev Total := BitVec 64

end Sys2Proof
end

