-- ==== Sys2Proof/Syntax.lean ====
section
/-! DEFINITION. The instructions (spec 30_encoding R100 to R104, R128): one constructor per row of
spec/opcode_table.json. -/

namespace Sys2Proof

/-- The value of the decoder (R103). The third row of the table is the class of every opcode byte without a
dispatch-table entry (R105). -/
inductive Instr where
  /-- NOP, opcode 0x00 (R140). -/
  | nop
  /-- LD BC,d16, opcode 0x01, with its 16-bit immediate (R150). -/
  | ldBcD16 (d16 : Word)
  /-- Any opcode byte 0x02 to 0xFF (R128). -/
  | unimplemented (opcode : Byte)
  deriving DecidableEq, Repr

/-- The two instruction formats (R101). -/
inductive Format where
  /-- `OP`: the opcode byte alone. -/
  | op
  /-- `OP_IMM16`: the opcode byte, then `imm_hi`, then `imm_lo`. -/
  | opImm16
  deriving DecidableEq, Repr

/-- The fixed cost of an instruction in machine and clock cycles (R104). -/
structure Cost where
  machine : Byte
  clock : Byte
  deriving DecidableEq, Repr

/-- A dispatch-table entry but for its effect: format, encoded length and cost, "co-located" (R104, R110). -/
structure Entry where
  format : Format
  length : Nat
  cost : Cost
  deriving DecidableEq, Repr

end Sys2Proof
end

