-- ==== Sys2Proof/WellFormed.lean ====
section
/-! DEFINITION. Which terms of `Instr` stand for an encoding (spec 30_encoding R104, R105). -/

namespace Sys2Proof

/-- The unimplemented class holds the opcode bytes 0x02 to 0xFF only (R105, R128): 0x00 and 0x01 have entries.
Every immediate is encodable (R102). -/
def Instr.wellFormed : Instr → Bool
  | .nop => true
  | .ldBcD16 _ => true
  | .unimplemented opcode => 2 ≤ opcode.toNat

/-- `Instr.wellFormed` as a proposition. -/
abbrev WellFormed (i : Instr) : Prop := i.wellFormed = true

end Sys2Proof
end

