-- ==== Sys2Proof/Decode.lean ====
section
/-! DEFINITION. Byte order, the dispatch table, the decoder and the encoder (spec 30_encoding). -/

namespace Sys2Proof

/-- `hi ++ lo`, with `hi` in bits 15:8 (R9, R57). -/
def joinBytes (hi lo : Byte) : Word := hi ++ lo

/-- `v[15:8]` (R9). -/
def hiByte (v : Word) : Byte := v.extractLsb' 8 8

/-- `v[7:0]` (R9). -/
def loByte (v : Word) : Byte := v.extractLsb' 0 8

/-- The entry of NOP: format `OP`, length 1, cost (1, 4) (R104, R141). -/
def nopEntry : Entry := { format := .op, length := 1, cost := { machine := 1, clock := 4 } }

/-- The entry of LD BC,d16: format `OP_IMM16`, length 3, cost (3, 12) (R104, R151). -/
def ldBcD16Entry : Entry := { format := .opImm16, length := 3, cost := { machine := 3, clock := 12 } }

/-- The complete dispatch table, keyed by the whole opcode byte (R103, R104): two entries, and none for
0x02 to 0xFF (R105). -/
def dispatchTable (opcode : Byte) : Option Entry :=
  if opcode = 0x00#8 then some nopEntry
  else if opcode = 0x01#8 then some ldBcD16Entry
  else none

/-- How many operand bytes follow the opcode byte, known from it alone (R106). An opcode without an entry
has none: the engine reads no byte after it (R107, R128). -/
def operandCount (opcode : Byte) : Nat :=
  match dispatchTable opcode with
  | some e =>
    match e.format with
    | .op => 0
    | .opImm16 => 2
  | none => 0

/-- The instruction an opcode byte stands for, given the 16-bit immediate that follows it where its format has
one (R103, R104). -/
def instrOf (opcode : Byte) (d16 : Word) : Instr :=
  if opcode = 0x00#8 then .nop
  else if opcode = 0x01#8 then .ldBcD16 d16
  else .unimplemented opcode

/-- Why a list of bytes is no instruction. The decoder refuses no opcode (R103), only a list that ends early. -/
inductive DecodeError where
  /-- The list is empty. -/
  | noOpcode
  /-- The opcode's immediate is cut off. -/
  | operandMissing (opcode : Byte)
  deriving DecidableEq, Repr

/-- Decoding of the first instruction of a list of bytes, with the bytes after it (R100 to R106). The first
operand byte is bits 15:8 of the immediate (R101, R102). -/
def decode : List Byte → Except DecodeError (Instr × List Byte)
  | [] => .error .noOpcode
  | opcode :: rest =>
    match operandCount opcode, rest with
    | 0, rest => .ok (instrOf opcode 0#16, rest)
    | _ + 1, hi :: lo :: rest' => .ok (instrOf opcode (joinBytes hi lo), rest')
    | _ + 1, _ => .error (.operandMissing opcode)

/-- The bytes of an instruction, first byte first (R101, R109). -/
def encode : Instr → List Byte
  | .nop => [0x00#8]
  | .ldBcD16 d16 => [0x01#8, hiByte d16, loByte d16]
  | .unimplemented opcode => [opcode]

/-- An opcode-table word as the bytes of the longest instruction, the first at the lowest address: byte `k` is
bits `8k+7 : 8k`, and every bit from `nbits` on is 0. -/
def tableBytes (nbits w : Nat) : List Byte :=
  let v := w % 2 ^ nbits
  [BitVec.ofNat 8 v, BitVec.ofNat 8 (v / 0x100), BitVec.ofNat 8 (v / 0x10000)]

/-- The bytes of the one instruction an opcode-table word holds: its opcode and its operand bytes. -/
def tableInstrBytes (nbits w : Nat) : List Byte :=
  (tableBytes nbits w).take (1 + operandCount (BitVec.ofNat 8 (w % 2 ^ nbits)))

/-- The instruction the decoder reads from an opcode-table word. -/
def decodeTableWord (nbits w : Nat) : Option Instr :=
  match decode (tableBytes nbits w) with
  | .ok (i, _) => some i
  | .error _ => none

end Sys2Proof
end

