-- ==== Sys2Proof/Config.lean ====
section
/-! DEFINITION. What is fixed for one implementation (spec 00_scope R7, R8): the sizes of the stores, the
smallest cartridge image, and the OPEN value ABSENT_ROM. The other parameters of R8 are arguments: BOOT_IMAGE,
CART_IMAGE and RAM_INIT of `Machine.construct`, BOOT_DISABLE_SCHEDULE of `Machine.runEvents`. -/

namespace Sys2Proof

/-- The two read-only cartridge windows (R30, R70). -/
inductive RomWindow where
  | rom0
  | romx
  deriving DecidableEq, Repr

/-- `ABSENT_ROM(window, offset)` (R8, R70, 92 D14): what a window reads where the cartridge image does not
reach. It has no body, so a claim holds whatever these bytes are (log entry 4). -/
opaque Config.absentRom : RomWindow → Nat → Byte

/-- The shortest cartridge image that is accepted (R7, R163). -/
def Config.minImageLength : Nat := 0x0150

/-- The size of the boot firmware in bytes (R7, R30). -/
def Config.bootSize : Nat := 0x100

/-- The size of one cartridge window in bytes (R7, R30). -/
def Config.romWindowSize : Nat := 0x4000

/-- The size of video, external and working RAM in bytes, each (R7, R30). -/
def Config.ramSize : Nat := 0x2000

/-- The size of the sprite table in bytes (R7, R30). -/
def Config.oamSize : Nat := 0xA0

/-- The size of the I/O registers and of high RAM in bytes, each (R7, R30). -/
def Config.pageHalfSize : Nat := 0x80

end Sys2Proof
end

