-- ==== Sys2Proof/Machine/State.lean ====
section
/-! DEFINITION. The state of one session (spec 10_state): the register file, `pc`, `sp`, the cycle counters, the
run state, the router's stores and `boot_active`, and the harness's totals and lifecycle. -/

namespace Sys2Proof.Machine

/-- The kind of access an UnmappedAccess records. Fetches are reads (R161, R164). -/
inductive AccessKind where
  | read
  | write
  deriving DecidableEq, Repr

/-- The fault record, exactly the four of R164. It is what the run state `Halted(f)` holds, and what every later
`step` and `run_cycle` of the halted session returns (R166). Each is safe: the machine stops where the spec says
that the session halts. -/
inductive Fault where
  /-- A write into 0x0000-0x7FFF (R160). Raised by the router's `write`; no instruction of this edition writes. -/
  | readOnlyViolation (addr : Word) (value : Byte)
  /-- A read, write or fetch in 0xFEA0-0xFEFF (R161). Raised by the opcode fetch, by the operand fetch of
  LD BC,d16 and by the router's `write`. -/
  | unmappedAccess (addr : Word) (kind : AccessKind)
  /-- An opcode without a dispatch-table entry (R162). Raised by the meaning of the unimplemented class. -/
  | unimplementedOpcode (opcode : Byte) (pc : Word)
  /-- A cartridge image shorter than 0x0150 bytes (R163). Raised by construction and reload, never by a step. -/
  | cartridgeTooSmall (length : Nat)
  deriving DecidableEq, Repr

/-- Why the model gives no meaning. Safe: nothing can be proved of a state after a refusal. -/
inductive Refusal where
  /-- Raised by an arm of `exec` whose instruction has no meaning yet; no arm of this model does. -/
  | notModelled (mnemonic : String)
  deriving DecidableEq, Repr

/-- The eight 8-bit registers (R20). -/
inductive Reg where
  | A | F | B | C | D | E | H | L
  deriving DecidableEq, Repr

/-- The four 16-bit pairs, views of the registers (R21). -/
inductive Pair where
  | AF | BC | DE | HL
  deriving DecidableEq, Repr

/-- The register file: eight bytes, F among them (R20). Reads and writes go through `State.readReg` and
`State.writeReg`, which hold the low nibble of F at 0 (R25). -/
structure Regs where
  a : Byte
  f : Byte
  b : Byte
  c : Byte
  d : Byte
  e : Byte
  h : Byte
  l : Byte
  deriving DecidableEq, Repr

/-- The core run state (R29). -/
inductive RunState where
  | running
  | halted (f : Fault)
  deriving DecidableEq, Repr

/-- The harness lifecycle (R33, R203). -/
inductive Lifecycle where
  /-- Before a successful `new`: no session, so no reachable `State` has it. -/
  | unloaded
  | loaded
  | running
  deriving DecidableEq, Repr

/-- The bytes of one store, as the pairs (offset, byte) of the offsets whose byte is not `Memory.unlisted`,
offsets strictly rising (`Memory.wf` in Machine/Ops.lean). -/
abbrev Memory := List Host.Cell

/-- The installed cartridge image: its length and its bytes. `rom0` and `romx` are the two views of it that
R70 gives, so the router's windows and the harness's image (R33) are stored once (log entry 3). -/
structure Cartridge where
  length : Nat
  bytes : Memory
  deriving DecidableEq, Repr

/-- The router's storage (R30) and `boot_active` (R31). -/
structure Router where
  boot : Memory
  cart : Cartridge
  vram : Memory
  eram : Memory
  wram : Memory
  oam : Memory
  io : Memory
  hram : Memory
  bootActive : Bool
  deriving DecidableEq, Repr

/-- The nine stores of R30. -/
inductive StoreId where
  | boot | rom0 | romx | vram | eram | wram | oam | io | hram
  deriving DecidableEq, Repr

/-- All the state of one session. -/
structure State where
  /-- The register file (R20). -/
  regs : Regs
  /-- The program counter (R26). -/
  pc : Word
  /-- The stack pointer (R27). -/
  sp : Word
  /-- Machine cycles of the last retired instruction, `last_m` (R28). -/
  lastM : Byte
  /-- Clock cycles of the last retired instruction, `last_t` (R28). -/
  lastT : Byte
  /-- The core run state (R29). -/
  run : RunState
  /-- The router's stores and the boot flag (R30, R31). -/
  router : Router
  /-- The harness's running total of machine cycles, `total_m` (R33). -/
  totalM : Total
  /-- The harness's running total of clock cycles, `total_t` (R33). -/
  totalT : Total
  /-- The harness's lifecycle state (R33). -/
  lifecycle : Lifecycle
  deriving DecidableEq, Repr

/-- The state right after power-on, which is the construction of a session (R35, R200, R201), for the blank
parameters: a boot image of 256 zero bytes, a cartridge image of 0x0150 zero bytes, RAM_INIT all zero (log entry
2: these three are DESIGN CHOICES, and `construct` takes every other value of them). -/
def State.reset : State where
  regs := { a := 0, f := 0, b := 0, c := 0, d := 0, e := 0, h := 0, l := 0 }
  pc := 0
  sp := 0
  lastM := 0
  lastT := 0
  run := .running
  router :=
    { boot := [], cart := { length := Config.minImageLength, bytes := [] }, vram := [], eram := [], wram := [],
      oam := [], io := [], hram := [], bootActive := true }
  totalM := 0
  totalT := 0
  lifecycle := .loaded

end Sys2Proof.Machine
end

