-- ==== Sys2Proof/Machine/Flags.lean ====
section
/-! DEFINITION. The flag register F (spec 10_state R23 to R25). The spec gives no formula that computes a flag from
a result: no instruction of this edition is an arithmetic or logic operation (R24). -/

namespace Sys2Proof.Machine

/-- The four flags (R23). -/
inductive Flag where
  | zero
  | subtraction
  | halfCarry
  | carry
  deriving DecidableEq, Repr

/-- The bit of F that holds a flag (R23). -/
def flagBit : Flag → Nat
  | .zero => 7
  | .subtraction => 6
  | .halfCarry => 5
  | .carry => 4

/-- F[3:0] is hardwired to 0: what F holds after a write of `v`, and what it reads as (R25). -/
def maskF (v : Byte) : Byte := v &&& 0xF0#8

/-- A flag of the byte that F holds. -/
def flagOf (f : Byte) (x : Flag) : Bool := (maskF f).getLsbD (flagBit x)

/-- The byte F with one flag given the value `b`; the other flags are kept (R23: each is read/write). -/
def withFlag (f : Byte) (x : Flag) (b : Bool) : Byte :=
  let bit : Byte := 1#8 <<< flagBit x
  maskF (if b then f ||| bit else f &&& ~~~bit)

end Sys2Proof.Machine
end

