-- ==== Sys2Proof/Machine/Ops.lean ====
section
/-! DEFINITION. The operations every instruction and every host transaction is made of: the bytes of a store, the
router's transactions (spec 20_memory), registers and pairs (10_state), and the ways a step ends: retire and the
fault path (40_engine R125 to R127). -/

namespace Sys2Proof.Machine

/-! ## The bytes of a store -/

/-- What an offset that a store does not list reads as. A store's contents are data that construction supplies, so
this byte is only how the list is written down (log entry 2). -/
def Memory.unlisted : Byte := 0x00#8

/-- The byte of a store at an offset. -/
def Memory.read : Memory → Nat → Byte
  | [], _ => Memory.unlisted
  | (a, b) :: rest, k => if a = k then b else Memory.read rest k

/-- The store with nothing listed at offset `k`. -/
def Memory.erase : Memory → Nat → Memory
  | [], _ => []
  | (a, b) :: rest, k => if a = k then Memory.erase rest k else (a, b) :: Memory.erase rest k

/-- The store with a cell put before the first larger offset. -/
def Memory.insert : Memory → Nat → Byte → Memory
  | [], k, v => [(k, v)]
  | (a, b) :: rest, k, v => if k < a then (k, v) :: (a, b) :: rest else (a, b) :: Memory.insert rest k v

/-- The store with the byte `v` at offset `k`, in canonical form: the byte an unlisted offset reads as is not
listed. -/
def Memory.write (m : Memory) (k : Nat) (v : Byte) : Memory :=
  if v = Memory.unlisted then Memory.erase m k else Memory.insert (Memory.erase m k) k v

/-- The canonical form from offset `lo` on: offsets strictly rising, at least `lo` and below `size`, and no byte
equal to what an unlisted offset reads as. -/
def Memory.wfFrom (size : Nat) : Nat → Memory → Bool
  | _, [] => true
  | lo, (a, b) :: rest => lo ≤ a && a < size && b != Memory.unlisted && Memory.wfFrom size (a + 1) rest

/-- The canonical form of the contents of a store of `size` bytes. Equal contents are equal lists. -/
def Memory.wf (size : Nat) (m : Memory) : Bool := Memory.wfFrom size 0 m

/-- The cells of a byte sequence that starts at offset `k`. -/
def Memory.ofListFrom : Nat → List Byte → Memory
  | _, [] => []
  | k, b :: rest =>
    if b = Memory.unlisted then Memory.ofListFrom (k + 1) rest else (k, b) :: Memory.ofListFrom (k + 1) rest

/-- A byte sequence as the contents of a store. -/
def Memory.ofList (bytes : List Byte) : Memory := Memory.ofListFrom 0 bytes

/-! ## Address decode -/

/-- What the router decodes an address into: a store and an offset in it, or the unmapped hole (R51). -/
inductive Target where
  | store (id : StoreId) (offset : Nat)
  | unmapped
  deriving DecidableEq, Repr

/-- The address decode of R51, which depends on the address and `boot_active` only (R55). Working RAM is mirrored:
its offset is the address modulo 8192 (R53). -/
def decodeAddr (bootActive : Bool) (a : Word) : Target :=
  let n := a.toNat
  if n < 0x0100 then .store (if bootActive then .boot else .rom0) n
  else if n < 0x4000 then .store .rom0 n
  else if n < 0x8000 then .store .romx (n - 0x4000)
  else if n < 0xA000 then .store .vram (n - 0x8000)
  else if n < 0xC000 then .store .eram (n - 0xA000)
  else if n < 0xFE00 then .store .wram (n % 8192)
  else if n < 0xFEA0 then .store .oam (n - 0xFE00)
  else if n < 0xFF00 then .unmapped
  else if n < 0xFF80 then .store .io (n - 0xFF00)
  else .store .hram (n - 0xFF80)

/-- Which stores a `write` may change (R30). -/
def StoreId.writable : StoreId → Bool
  | .boot | .rom0 | .romx => false
  | .vram | .eram | .wram | .oam | .io | .hram => true

/-- The size of each store in bytes (R30). -/
def StoreId.size : StoreId → Nat
  | .boot => Config.bootSize
  | .rom0 | .romx => Config.romWindowSize
  | .vram | .eram | .wram => Config.ramSize
  | .oam => Config.oamSize
  | .io | .hram => Config.pageHalfSize

/-! ## The cartridge -/

/-- Where a window starts in the cartridge image (R70). -/
def RomWindow.base : RomWindow → Nat
  | .rom0 => 0
  | .romx => 0x4000

/-- `rom0_byte(off)` and `romx_byte(off)` (R70): the image's byte, or ABSENT_ROM where the image ends before. -/
def Cartridge.byteAt (c : Cartridge) (w : RomWindow) (off : Nat) : Byte :=
  let k := RomWindow.base w + off
  if k < c.length then Memory.read c.bytes k else Config.absentRom w off

/-- A cartridge image as the router holds it. -/
def Cartridge.ofImage (image : List Byte) : Cartridge :=
  { length := image.length, bytes := Memory.ofList image }

/-- The image with one byte replaced, made longer where it does not reach that byte. No transaction of the
machine does this (R71); it only serves to place a word for `State.withFetchWord`. -/
def Cartridge.poke (c : Cartridge) (w : RomWindow) (off : Nat) (v : Byte) : Cartridge :=
  let k := RomWindow.base w + off
  { length := max c.length (k + 1), bytes := Memory.write c.bytes k v }

/-! ## The router's transactions -/

/-- The byte of a store at an offset (R30). -/
def Router.byteAt (r : Router) : StoreId → Nat → Byte
  | .boot, off => Memory.read r.boot off
  | .rom0, off => r.cart.byteAt .rom0 off
  | .romx, off => r.cart.byteAt .romx off
  | .vram, off => Memory.read r.vram off
  | .eram, off => Memory.read r.eram off
  | .wram, off => Memory.read r.wram off
  | .oam, off => Memory.read r.oam off
  | .io, off => Memory.read r.io off
  | .hram, off => Memory.read r.hram off

/-- The router with one byte of one store replaced. -/
def Router.poke (r : Router) : StoreId → Nat → Byte → Router
  | .boot, off, v => { r with boot := Memory.write r.boot off v }
  | .rom0, off, v => { r with cart := r.cart.poke .rom0 off v }
  | .romx, off, v => { r with cart := r.cart.poke .romx off v }
  | .vram, off, v => { r with vram := Memory.write r.vram off v }
  | .eram, off, v => { r with eram := Memory.write r.eram off v }
  | .wram, off, v => { r with wram := Memory.write r.wram off v }
  | .oam, off, v => { r with oam := Memory.write r.oam off v }
  | .io, off, v => { r with io := Memory.write r.io off v }
  | .hram, off, v => { r with hram := Memory.write r.hram off v }

/-- `read(a)` (R58). It changes no state. -/
def Router.read (r : Router) (a : Word) : Except Fault Byte :=
  match decodeAddr r.bootActive a with
  | .store id off => .ok (r.byteAt id off)
  | .unmapped => .error (.unmappedAccess a .read)

/-- `write(a, v)` (R59). -/
def Router.write (r : Router) (a : Word) (v : Byte) : Except Fault Router :=
  match decodeAddr r.bootActive a with
  | .store id off => if id.writable then .ok (r.poke id off v) else .error (.readOnlyViolation a v)
  | .unmapped => .error (.unmappedAccess a .write)

/-- `read16(a)` (R60): the byte at `a` is the high byte (R57), `a + 1` wraps (R56), and the first fault met is the
fault. -/
def Router.read16 (r : Router) (a : Word) : Except Fault Word :=
  match r.read a with
  | .error f => .error f
  | .ok hi =>
    match r.read (a + 1#16) with
    | .error f => .error f
    | .ok lo => .ok (joinBytes hi lo)

/-- `set_boot_active(b)` (R62): `false` clears the flag, `true` changes nothing. -/
def Router.setBootActive (r : Router) (b : Bool) : Router :=
  if b then r else { r with bootActive := false }

/-- Installation of a cartridge image (R70): both windows change together. -/
def Router.install (r : Router) (image : List Byte) : Router :=
  { r with cart := Cartridge.ofImage image }

/-- The router with the bytes placed at `a`, `a + 1`, …, each in the store that backs its address, read-only stores
included; an address in the hole has no byte. For `State.withFetchWord` only. -/
def Router.place (r : Router) : Word → List Byte → Router
  | _, [] => r
  | a, b :: rest =>
    match decodeAddr r.bootActive a with
    | .store id off => Router.place (r.poke id off b) (a + 1#16) rest
    | .unmapped => Router.place r (a + 1#16) rest

/-- Every store is in canonical form and within its size (R30). The installed image has at least the smallest
length (R163). -/
def Router.wf (r : Router) : Bool :=
  Memory.wf StoreId.boot.size r.boot && Config.minImageLength ≤ r.cart.length &&
  Memory.wf r.cart.length r.cart.bytes && Memory.wf StoreId.vram.size r.vram && Memory.wf StoreId.eram.size r.eram &&
  Memory.wf StoreId.wram.size r.wram && Memory.wf StoreId.oam.size r.oam && Memory.wf StoreId.io.size r.io &&
  Memory.wf StoreId.hram.size r.hram

/-! ## Registers, flags and pairs -/

/-- The byte a register reads as. Only F is hardwired in part (R22, R25). -/
def Regs.get (r : Regs) : Reg → Byte
  | .A => r.a
  | .F => maskF r.f
  | .B => r.b
  | .C => r.c
  | .D => r.d
  | .E => r.e
  | .H => r.h
  | .L => r.l

/-- The register file after a write to one register (R25 for F). -/
def Regs.set (r : Regs) : Reg → Byte → Regs
  | .A, v => { r with a := v }
  | .F, v => { r with f := maskF v }
  | .B, v => { r with b := v }
  | .C, v => { r with c := v }
  | .D, v => { r with d := v }
  | .E, v => { r with e := v }
  | .H, v => { r with h := v }
  | .L, v => { r with l := v }

/-- The high register of a pair (R21). -/
def Pair.hi : Pair → Reg
  | .AF => .A
  | .BC => .B
  | .DE => .D
  | .HL => .H

/-- The low register of a pair (R21). -/
def Pair.lo : Pair → Reg
  | .AF => .F
  | .BC => .C
  | .DE => .E
  | .HL => .L

/-- `x[r]` (R10). -/
def State.readReg (s : State) (r : Reg) : Byte := s.regs.get r

/-- `x[r] <- v` (R10). -/
def State.writeReg (s : State) (r : Reg) (v : Byte) : State := { s with regs := s.regs.set r v }

/-- `x[rr]` (R10, R21). -/
def State.readPair (s : State) (p : Pair) : Word := joinBytes (s.readReg p.hi) (s.readReg p.lo)

/-- `x[rr] <- v` (R10, R21). -/
def State.writePair (s : State) (p : Pair) (v : Word) : State :=
  (s.writeReg p.hi (hiByte v)).writeReg p.lo (loByte v)

/-- A flag of F (R23). -/
def State.flag (s : State) (x : Flag) : Bool := flagOf s.regs.f x

/-- A write of one flag (R23). No instruction of this edition does this (R24). -/
def State.writeFlag (s : State) (x : Flag) (b : Bool) : State := s.writeReg .F (withFlag s.regs.f x b)

/-! ## Memory accesses of the core -/

/-- `MemRead(a, 1)` (R11, R58). -/
def State.read (s : State) (a : Word) : Except Fault Byte := s.router.read a

/-- `MemRead(a, 2)` (R11, R60). -/
def State.read16 (s : State) (a : Word) : Except Fault Word := s.router.read16 a

/-- `MemWrite(a, 1, v)` (R11, R59), to be staged in an effect. No instruction of this edition does this (R50). -/
def State.memWrite (s : State) (a : Word) (v : Byte) : Except Fault State :=
  match s.router.write a v with
  | .error f => .error f
  | .ok r => .ok { s with router := r }

/-! ## The end of a step -/

/-- The numeric code of a fault (R160 to R163). -/
def Fault.code : Fault → Nat
  | .readOnlyViolation _ _ => 1
  | .unmappedAccess _ _ => 2
  | .unimplementedOpcode _ _ => 3
  | .cartridgeTooSmall _ => 4

/-- Taking a fault (R127, R165, R166): the run state becomes `Halted(f)` and nothing else changes. It is applied to
the state from before the step, so every staged write is discarded. A fault has no vector and no handler, and there
is no return from it (R165, R168). -/
def State.takeFault (s : State) (f : Fault) : State := { s with run := .halted f }

/-- RETIRE (R125): the cost is recorded and `pc` advances by the encoded length modulo 2^16. -/
def State.retire (s : State) (e : Entry) : State :=
  { s with pc := s.pc + BitVec.ofNat 16 e.length, lastM := e.cost.machine, lastT := e.cost.clock }

/-- EXECUTE and RETIRE of an instruction with a dispatch-table entry (R124 to R127, R110): its effect is staged on
a copy of the state, then committed with the retirement, or discarded for the fault it raised. -/
def State.execute (s : State) (e : Entry) (effect : State → Except Fault State) :
    Host.Outcome State Fault Refusal :=
  match effect s with
  | .ok t => .next (t.retire e)
  | .error f => .next (s.takeFault f)

/-- What `step` returns to its caller, read from the state it leaves (R120, R127, R180): the cost of the retired
instruction, or the fault. -/
def State.stepResult (s : State) : Except Fault Cost :=
  match s.run with
  | .running => .ok { machine := s.lastM, clock := s.lastT }
  | .halted f => .error f

end Sys2Proof.Machine
end

