-- ==== Sys2Proof/Machine/Operands.lean ====
section
/-! DEFINITION. FETCH, DECODE and OPERAND (spec 40_engine R121 to R123). The 16-bit immediate is the only operand
form that reads memory; the destination pair is fixed by the opcode (30_encoding R102, R103). -/

namespace Sys2Proof.Machine

/-- OPERAND for format `OP_IMM16` (R102, R123): the 16-bit immediate after the opcode byte. -/
def State.immediate16 (s : State) : Except Fault Word := s.read16 (s.pc + 1#16)

/-- The instruction at `pc`, with its operands, or the first fault of the accesses it takes, in the order opcode,
decode, `pc + 1`, `pc + 2` (R121 to R123, R167). -/
def State.fetchInstr (s : State) : Except Fault Instr :=
  match s.read s.pc with
  | .error f => .error f
  | .ok opcode =>
    match operandCount opcode with
    | 0 => .ok (instrOf opcode 0#16)
    | _ + 1 =>
      match s.immediate16 with
      | .error f => .error f
      | .ok d16 => .ok (instrOf opcode d16)

end Sys2Proof.Machine
end

