-- ==== Sys2Proof/Machine/Control.lean ====
section
/-! DEFINITION. The zero-effect instruction (spec 41_control_nop). -/

namespace Sys2Proof.Machine

/-- NOP (R140, R141): no effect but to retire. -/
def execNop (s : State) : Host.Outcome State Fault Refusal := s.execute nopEntry .ok

end Sys2Proof.Machine
end

