-- ==== Sys2Proof/Machine/Load16.lean ====
section
/-! DEFINITION. The 16-bit immediate register-pair load (spec 42_load16). -/

namespace Sys2Proof.Machine

/-- LD BC,d16 (R150 to R152): B takes bits 15:8 of the immediate, the byte at `pc + 1`, and C bits 7:0, the byte at
`pc + 2`. -/
def execLdBcD16 (d16 : Word) (s : State) : Host.Outcome State Fault Refusal :=
  s.execute ldBcD16Entry fun t => .ok (t.writePair .BC d16)

end Sys2Proof.Machine
end

