-- ==== Sys2Proof/Machine/Unimplemented.lean ====
section
/-! DEFINITION. The unimplemented-opcode class (spec 40_engine R128). -/

namespace Sys2Proof.Machine

/-- An opcode without a dispatch-table entry (R128, R162): it raises UnimplementedOpcode with the opcode and `pc`,
and the session halts. -/
def execUnimplemented (opcode : Byte) (s : State) : Host.Outcome State Fault Refusal :=
  .next (s.takeFault (.unimplementedOpcode opcode s.pc))

end Sys2Proof.Machine
end

