-- ==== Sys2Proof/Machine/Dispatch.lean ====
section
/-! DEFINITION. One arm per instruction (spec 40_engine R122, R124). -/

namespace Sys2Proof.Machine

/-- What the decoded instruction does, with its operands already read (R124 to R128). -/
def exec (i : Instr) (s : State) : Host.Outcome State Fault Refusal :=
  match i with
  | .nop => Sys2Proof.Machine.execNop s
  | .ldBcD16 d16 => Sys2Proof.Machine.execLdBcD16 d16 s
  | .unimplemented opcode => Sys2Proof.Machine.execUnimplemented opcode s

end Sys2Proof.Machine
end

