-- ==== Sys2Proof/Machine/Step.lean ====
section
/-! DEFINITION. The step (spec 40_engine R129), and where an instruction word is placed for it. -/

namespace Sys2Proof.Machine

/-- One step (R120, R129). A halted session answers its recorded fault and changes nothing (R166). In a running
session a fault of the fetch or of the instruction is taken: the next state is the same state, halted (R127, log entry 1). -/
def step (s : State) : Host.Outcome State Fault Refusal :=
  match s.run with
  | .halted f => .fault f
  | .running =>
    match s.fetchInstr with
    | .error f => .next (s.takeFault f)
    | .ok i => exec i s

/-- The state with the instruction of an opcode-table word placed at `pc` and its following addresses, in the
stores that back them, and able to step (log entry 8). Addresses in the unmapped hole hold no byte, so there the step
faults as the spec says. -/
def State.withFetchWord (s : State) (nbits w : Nat) : State :=
  { s with router := s.router.place s.pc (tableInstrBytes nbits w), run := .running }

end Sys2Proof.Machine
end

