-- ==== Sys2Proof/Machine/Harness.lean ====
section
/-! DEFINITION. The host's transactions on a session (spec 60_exceptions R181, R190; 70_reset_and_hazards R201, R203,
R205; 20_memory R62): construction, reload, `run_cycle` and `set_boot_active`. Each is atomic and lies between two
steps (00_scope R5, 70 R212). -/

namespace Sys2Proof.Machine

/-- RAM_INIT (R8, 92 D13): the first contents of every writable store. -/
structure RamInit where
  vram : Vector Byte Config.ramSize
  eram : Vector Byte Config.ramSize
  wram : Vector Byte Config.ramSize
  oam : Vector Byte Config.oamSize
  io : Vector Byte Config.pageHalfSize
  hram : Vector Byte Config.pageHalfSize
  deriving DecidableEq, Repr

/-- The arguments of a construction (R8): BOOT_IMAGE, CART_IMAGE and RAM_INIT. -/
structure PowerOn where
  bootImage : Vector Byte Config.bootSize
  cartImage : List Byte
  ramInit : RamInit
  deriving DecidableEq, Repr

/-- `new(img, BOOT_IMAGE)` (R201). A failed construction creates nothing. -/
def construct (p : PowerOn) : Except Fault State :=
  if p.cartImage.length < Config.minImageLength then .error (.cartridgeTooSmall p.cartImage.length)
  else
    .ok
      { regs := { a := 0, f := 0, b := 0, c := 0, d := 0, e := 0, h := 0, l := 0 }
        pc := 0
        sp := 0
        lastM := 0
        lastT := 0
        run := .running
        router :=
          { boot := Memory.ofList p.bootImage.toList
            cart := Cartridge.ofImage p.cartImage
            vram := Memory.ofList p.ramInit.vram.toList
            eram := Memory.ofList p.ramInit.eram.toList
            wram := Memory.ofList p.ramInit.wram.toList
            oam := Memory.ofList p.ramInit.oam.toList
            io := Memory.ofList p.ramInit.io.toList
            hram := Memory.ofList p.ramInit.hram.toList
            bootActive := true }
        totalM := 0
        totalT := 0
        lifecycle := .loaded }

/-- The lifecycle state a call of `new` leaves (R203). -/
def lifecycleAfterNew : Except Fault State → Lifecycle
  | .error _ => .unloaded
  | .ok s => s.lifecycle

/-- `reload(img)` (R205). A rejected image installs nothing and halts the session (R163). -/
def reload (image : List Byte) (s : State) : Host.Outcome State Fault Refusal :=
  match s.run with
  | .halted f => .fault f
  | .running =>
    if image.length < Config.minImageLength then .next (s.takeFault (.cartridgeTooSmall image.length))
    else .next { s with router := s.router.install image }

/-- The host's `set_boot_active(b)` (R62). In a halted session nothing changes any more (R29, log entry 6). -/
def setBootActive (b : Bool) (s : State) : Host.Outcome State Fault Refusal :=
  match s.run with
  | .halted _ => .next s
  | .running => .next { s with router := s.router.setBootActive b }

/-- The totals after a step that returned a cost, modulo 2^64 (R181). A step that faulted leaves them. -/
def State.addTotals (s : State) : State :=
  match s.stepResult with
  | .ok cost =>
    { s with totalM := s.totalM + cost.machine.setWidth 64, totalT := s.totalT + cost.clock.setWidth 64 }
  | .error _ => s

/-- `run_cycle()` (R181): one step, then its cost is added to the totals. It enters the lifecycle state `Running`
(R203, log entry 7). On a halted session it returns the recorded fault and changes nothing (R166). -/
def runCycle (s : State) : Host.Outcome State Fault Refusal :=
  match step s with
  | .next t => .next { t.addTotals with lifecycle := .running }
  | .fault f => .fault f
  | .refused r => .refused r

/-- What the host may do with a session once it is constructed (R190). -/
inductive HostEvent where
  | runCycle
  | setBootActive (b : Bool)
  | reload (image : List Byte)
  deriving DecidableEq, Repr

/-- One host transaction (R190). -/
def transact (e : HostEvent) (s : State) : Host.Outcome State Fault Refusal :=
  match e with
  | .runCycle => runCycle s
  | .setBootActive b => setBootActive b s
  | .reload image => reload image s

/-- The session after a transaction: one that answers a fault or a refusal has changed nothing (R166). -/
def afterEvent (s : State) (e : HostEvent) : State :=
  match transact e s with
  | .next t => t
  | .fault _ => s
  | .refused _ => s

/-- The session after a list of host transactions. The list is the host's own choice, BOOT_DISABLE_SCHEDULE among it
(R8). -/
def runEvents (events : List HostEvent) (s : State) : State := events.foldl afterEvent s

end Sys2Proof.Machine
end

