-- ==== Sys2Proof/Safety.lean ====
section
/-! DEFINITION. The terms claims are stated in: the invariant of a session, the sessions a host can bring about, and
what two states have in common. -/

namespace Sys2Proof.Machine

/-- The unmapped hole 0xFEA0-0xFEFF (R54). -/
abbrev InHole (a : Word) : Prop := 0xFEA0 ≤ a.toNat ∧ a.toNat ≤ 0xFEFF

/-- A fault record that its rule allows (R160 to R163), in a state whose `pc` is `pc`: UnimplementedOpcode records the
`pc` of the opcode, which a fault leaves unchanged (R127). -/
def Fault.Legal (pc : Word) : Fault → Prop
  | .readOnlyViolation a _ => a.toNat < 0x8000
  | .unmappedAccess a _ => InHole a
  | .unimplementedOpcode opcode p => 2 ≤ opcode.toNat ∧ p = pc
  | .cartridgeTooSmall n => n < Config.minImageLength

/-- A run state whose fault, if it holds one, is legal. -/
def RunState.Legal (pc : Word) : RunState → Prop
  | .running => True
  | .halted f => f.Legal pc

/-- The invariant of a session: the low nibble of F is 0 (R25), every store is in canonical form, the installed image
is long enough (R163), the counters hold a cost of the dispatch table or their reset value (R28, R104), the recorded
fault is one its rule allows, and the session is loaded (R203). -/
structure State.Inv (s : State) : Prop where
  flags : s.regs.f &&& 0x0F#8 = 0#8
  stores : s.router.wf = true
  counters : (s.lastM, s.lastT) ∈ [((0 : Byte), (0 : Byte)), (1, 4), (3, 12)]
  runState : s.run.Legal s.pc
  lifecycle : s.lifecycle ≠ .unloaded

/-- A state of some session: a construction that succeeded, then any list of host transactions. -/
def Reachable (s : State) : Prop := ∃ p s₀ events, construct p = .ok s₀ ∧ s = runEvents events s₀

/-- The two routers answer every read alike. -/
def SameReads (r₁ r₂ : Router) : Prop := ∀ a, r₁.read a = r₂.read a

/-- The byte a window shows of an image (R70): the image's byte, or ABSENT_ROM where the image does not reach. -/
def imageByte (image : List Byte) (w : RomWindow) (off : Nat) : Byte :=
  image[RomWindow.base w + off]?.getD (Config.absentRom w off)

/-- The first contents of each store (R35), for an offset inside the store: BOOT_IMAGE, the two windows of
CART_IMAGE, and RAM_INIT. -/
def PowerOn.initialByte (p : PowerOn) : StoreId → Nat → Byte
  | .boot, off => p.bootImage.toList.getD off 0#8
  | .rom0, off => imageByte p.cartImage .rom0 off
  | .romx, off => imageByte p.cartImage .romx off
  | .vram, off => p.ramInit.vram.toList.getD off 0#8
  | .eram, off => p.ramInit.eram.toList.getD off 0#8
  | .wram, off => p.ramInit.wram.toList.getD off 0#8
  | .oam, off => p.ramInit.oam.toList.getD off 0#8
  | .io, off => p.ramInit.io.toList.getD off 0#8
  | .hram, off => p.ramInit.hram.toList.getD off 0#8

/-- The construction arguments of `State.reset`: zero bytes, and the shortest image (log entry 2). -/
def PowerOn.blank : PowerOn where
  bootImage := Vector.replicate Config.bootSize 0#8
  cartImage := List.replicate Config.minImageLength 0#8
  ramInit :=
    { vram := Vector.replicate Config.ramSize 0#8
      eram := Vector.replicate Config.ramSize 0#8
      wram := Vector.replicate Config.ramSize 0#8
      oam := Vector.replicate Config.oamSize 0#8
      io := Vector.replicate Config.pageHalfSize 0#8
      hram := Vector.replicate Config.pageHalfSize 0#8 }

/-- The value of the last write of a list to one store byte, through any address that decodes to it. -/
def lastWrite (bootActive : Bool) (id : StoreId) (off : Nat) : List (Word × Byte) → Option Byte
  | [] => none
  | (a, v) :: rest =>
    match lastWrite bootActive id off rest with
    | some later => some later
    | none => if decodeAddr bootActive a = .store id off then some v else none

/-- The writes of a list, done one after another. -/
def Router.writeAll (r : Router) : List (Word × Byte) → Except Fault Router
  | [] => .ok r
  | (a, v) :: rest =>
    match r.write a v with
    | .error f => .error f
    | .ok r' => Router.writeAll r' rest

end Sys2Proof.Machine
end

