-- ==== Sys2Proof/Certificates/Slice0/Obligations.lean ====
section
/-! DEFINITION. The statements about the machine, in the order of the spec's files. -/

open Sys2Proof Sys2Proof.Machine

/-! ## 10_state: registers, flags, counters, run state -/

/-- R201: construction. A short image is refused and no session exists; any other gives a session in which every register,
counter, total and flag is 0, the core is Running, the boot flag is 1, the lifecycle is Loaded, and the stores hold
BOOT_IMAGE, the two windows of CART_IMAGE and RAM_INIT, whatever these are. (The register names, the OPEN RAM_INIT
and ABSENT_ROM, and the first run state and totals are the spec's own decisions D2, D13, D14 and D28.) -/
def Obligations.ConstructionGivesResetValues : Prop :=
  (∀ p : PowerOn, p.cartImage.length < 0x0150 → construct p = .error (.cartridgeTooSmall p.cartImage.length)) ∧
    ∀ p : PowerOn, 0x0150 ≤ p.cartImage.length → ∃ s, construct p = .ok s ∧
      s.regs = { a := 0x00#8, f := 0x00#8, b := 0x00#8, c := 0x00#8, d := 0x00#8, e := 0x00#8, h := 0x00#8,
                 l := 0x00#8 } ∧
      (∀ r, s.readReg r = 0x00#8) ∧ (∀ q, s.readPair q = 0x0000#16) ∧ (∀ x, s.flag x = false) ∧
      s.pc = 0x0000#16 ∧ s.sp = 0x0000#16 ∧ s.lastM = 0#8 ∧ s.lastT = 0#8 ∧ s.run = .running ∧
      s.router.bootActive = true ∧
      (∀ id off, off < StoreId.size id → s.router.byteAt id off = p.initialByte id off) ∧
      s.totalM = 0#64 ∧ s.totalT = 0#64 ∧ s.lifecycle = .loaded

/-- The model's `State.reset` is a construction: the one from the blank arguments that log entry 2 chooses. -/
def Obligations.ResetIsTheBlankConstruction : Prop :=
  construct PowerOn.blank = .ok State.reset

/-- R25: F[3:0] is hardwired to 0, for a write of F alone, as the low byte of AF, for a read in every state, and
as an invariant of what F stores in every session. (The spec's own decision D4.) -/
def Obligations.FlagRegisterLowNibbleIsHardwired : Prop :=
  (∀ (s : State) v, (s.writeReg .F v).regs.f = v &&& 0xF0#8) ∧
    (∀ (s : State) w, (s.writePair .AF w).regs.f = loByte w &&& 0xF0#8) ∧
    (∀ s : State, s.readReg .F &&& 0x0F#8 = 0#8) ∧
    (∀ (s : State) v, (s.writeReg .F v).readReg .F = v &&& 0xF0#8) ∧
    ∀ s, Reachable s → s.regs.f &&& 0x0F#8 = 0#8

/-- R21: a pair is a view of two registers. Reading composes them, writing writes both in one commit, AF obeys R25,
and nothing else of the state changes. (The spec's own decision D2.) -/
def Obligations.PairIsAViewOfItsTwoRegisters : Prop :=
  (∀ (s : State) p, (s.readPair p).toNat = (s.readReg (Pair.hi p)).toNat * 256 + (s.readReg (Pair.lo p)).toNat) ∧
    (Pair.hi .AF, Pair.lo .AF) = (Reg.A, Reg.F) ∧ (Pair.hi .BC, Pair.lo .BC) = (Reg.B, Reg.C) ∧
    (Pair.hi .DE, Pair.lo .DE) = (Reg.D, Reg.E) ∧ (Pair.hi .HL, Pair.lo .HL) = (Reg.H, Reg.L) ∧
    (∀ (s : State) p v, (s.writePair p v).readReg (Pair.hi p) = hiByte v) ∧
    (∀ (s : State) p v, p ≠ .AF → (s.writePair p v).readReg (Pair.lo p) = loByte v) ∧
    (∀ (s : State) p v, p ≠ .AF → (s.writePair p v).readPair p = v) ∧
    (∀ (s : State) v, (s.writePair .AF v).readPair .AF = v &&& 0xFFF0#16) ∧
    (∀ s : State, s.readPair .AF &&& 0x000F#16 = 0#16) ∧
    (∀ (s : State) p v r, r ≠ Pair.hi p → r ≠ Pair.lo p → (s.writePair p v).readReg r = s.readReg r) ∧
    ∀ (s : State) p v, ∃ g, s.writePair p v = { s with regs := g }

/-- R23: the layout of F: Z is bit 7, N bit 6, H bit 5, C bit 4, each read/write on its own, and bits 3:0 are 0.
(The bit order is the spec's own decision D3.) -/
def Obligations.FlagsLieInTheHighNibbleOfF : Prop :=
  (∀ s : State, s.flag .zero = (s.readReg .F).getLsbD 7 ∧ s.flag .subtraction = (s.readReg .F).getLsbD 6 ∧
      s.flag .halfCarry = (s.readReg .F).getLsbD 5 ∧ s.flag .carry = (s.readReg .F).getLsbD 4) ∧
    (∀ (s : State) x b, (s.writeFlag x b).flag x = b) ∧
    (∀ (s : State) x b y, y ≠ x → (s.writeFlag x b).flag y = s.flag y) ∧
    (∀ (s : State) i, i < 4 → (s.readReg .F).getLsbD i = false) ∧
    ∀ (s : State) x b r, r ≠ .F → (s.writeFlag x b).readReg r = s.readReg r

/-- LD BC,d16 is the only instruction that writes a general register, B and C; no instruction reads one; the others
stay 0 for the whole session; only the low nibble of F is hardwired. (The spec marks the session clause of R22 as
derived by itself.) -/
def Obligations.OnlyLoadWritesRegistersAndOnlyBC : Prop :=
  (∀ i s t, exec i s = .next t → (∀ d16, i ≠ .ldBcD16 d16) → t.regs = s.regs) ∧
    (∀ d16 s t, exec (.ldBcD16 d16) s = .next t → ∀ r, r ≠ .B → r ≠ .C → t.readReg r = s.readReg r) ∧
    (∀ i (s : State) g t, exec i s = .next t →
      ∃ t', exec i { s with regs := g } = .next t' ∧ t = { t' with regs := t.regs } ∧
        (∀ d16, i = .ldBcD16 d16 → t'.regs.b = t.regs.b ∧ t'.regs.c = t.regs.c)) ∧
    (∀ (s : State) r v, r ≠ .F → (s.writeReg r v).readReg r = v) ∧
    ∀ s, Reachable s → ∀ r, r ≠ .B → r ≠ .C → s.readReg r = 0x00#8

/-- No instruction sets, clears or reads a flag, so every flag is 0 for the whole session. (The spec marks this
clause of R24 as derived by itself.) -/
def Obligations.NoInstructionTouchesAFlag : Prop :=
  (∀ i s t, exec i s = .next t → t.regs.f = s.regs.f ∧ ∀ x, t.flag x = s.flag x) ∧
    (∀ i (s : State) v t, exec i s = .next t →
      exec i { s with regs := { s.regs with f := v } } = .next { t with regs := { t.regs with f := v } }) ∧
    ∀ s, Reachable s → ∀ x, s.flag x = false

/-- No instruction reads or writes `sp`, so it is 0 for the whole session. (The spec marks this clause of R27 as
derived by itself.) -/
def Obligations.StackPointerIsUntouched : Prop :=
  (∀ i s t, exec i s = .next t → t.sp = s.sp) ∧
    (∀ i (s : State) v t, exec i s = .next t → exec i { s with sp := v } = .next { t with sp := v }) ∧
    ∀ s, Reachable s → s.sp = 0x0000#16

/-- R26: a step that retires moves `pc` past the encoded length modulo 2^16, 1 for NOP and 3 for LD BC,d16; a step
that faults leaves it at the faulting opcode. (The wrap is the spec's own decision D8.) -/
def Obligations.PcAdvancesByTheEncodedLength : Prop :=
  ∀ s t, step s = .next t →
    (t.run = .running → ∃ n, t.pc.toNat = (s.pc.toNat + n) % 0x10000 ∧
      ((s.read s.pc = .ok 0x00#8 ∧ n = 1) ∨ (s.read s.pc = .ok 0x01#8 ∧ n = 3))) ∧
    ((∃ f, t.run = .halted f) → t.pc = s.pc)

/-- R28: a step that retires records its opcode's cost and returns that pair; a step that faults leaves the
counters; no instruction reads them. (The spec's own decisions D10 and D19.) -/
def Obligations.CountersHoldTheLastCost : Prop :=
  (∀ s t, step s = .next t → t.run = .running →
      t.stepResult = .ok { machine := t.lastM, clock := t.lastT } ∧
      ((s.read s.pc = .ok 0x00#8 ∧ t.lastM = 1#8 ∧ t.lastT = 4#8) ∨
        (s.read s.pc = .ok 0x01#8 ∧ t.lastM = 3#8 ∧ t.lastT = 12#8))) ∧
    (∀ s t f, step s = .next t → t.run = .halted f → t.lastM = s.lastM ∧ t.lastT = s.lastT) ∧
    ∀ (s : State) m c t, step s = .next t → t.run = .running → step { s with lastM := m, lastT := c } = .next t

/-- R166: a halt is final. Every later `step`, `run_cycle` and `reload` returns the fault, and no list of host
transactions changes any state. (The spec's own decisions D12 and D29; that `set_boot_active` is in that list is the
model's choice of log entry 6.) -/
def Obligations.HaltIsFinal : Prop :=
  ∀ (s : State) f, s.run = .halted f →
    step s = .fault f ∧ runCycle s = .fault f ∧ (∀ image, reload image s = .fault f) ∧
      ∀ events, runEvents events s = s

/-- R31, R62: `boot_active` is the one input of the address decode beside the address; it changes through
`set_boot_active(false)` only, from 1 to 0 only, and never back within a session. (That
`true` is ignored and that the host drives the input are the spec's own decision D17.) -/
def Obligations.BootActiveIsOneWay : Prop :=
  (∀ s : State, s.run = .running →
      setBootActive false s = .next { s with router := { s.router with bootActive := false } } ∧
      setBootActive true s = .next s) ∧
    (∀ s e, (afterEvent s e).router.bootActive = s.router.bootActive ∨
      (e = .setBootActive false ∧ s.router.bootActive = true ∧ (afterEvent s e).router.bootActive = false)) ∧
    (∀ i s t, exec i s = .next t → t.router.bootActive = s.router.bootActive) ∧
    (∀ (r r' : Router) a v, r.write a v = .ok r' → r'.bootActive = r.bootActive) ∧
    (∀ events (s : State), s.router.bootActive = false → (runEvents events s).router.bootActive = false) ∧
    ∀ a : Word, decodeAddr true a ≠ decodeAddr false a ↔ a.toNat < 0x0100

/-- R36: what a reload changes. A successful one changes `rom0` and `romx` only (by R70); a rejected one changes the
run state only. (The spec's own decision D18.) -/
def Obligations.ReloadChangesOnlyTheRomWindows : Prop :=
  ∀ (s : State) image, s.run = .running →
    (0x0150 ≤ image.length → ∃ c, reload image s = .next { s with router := { s.router with cart := c } } ∧
      ∀ w off, off < 0x4000 → c.byteAt w off = imageByte image w off) ∧
    (image.length < 0x0150 → reload image s = .next { s with run := .halted (.cartridgeTooSmall image.length) })

/-! ## 20_memory: the address router -/

/-- R51: the address map, row by row, with its read and write columns. -/
def Obligations.AddressMapIsTheTable : Prop :=
  ∀ (r : Router) (a : Word) (v : Byte),
    let n := a.toNat
    (n ≤ 0x00FF → r.bootActive = true → decodeAddr r.bootActive a = .store .boot n) ∧
    (n ≤ 0x00FF → r.bootActive = false → decodeAddr r.bootActive a = .store .rom0 n) ∧
    (0x0100 ≤ n → n ≤ 0x3FFF → decodeAddr r.bootActive a = .store .rom0 n) ∧
    (0x4000 ≤ n → n ≤ 0x7FFF → decodeAddr r.bootActive a = .store .romx (n - 0x4000)) ∧
    (0x8000 ≤ n → n ≤ 0x9FFF → decodeAddr r.bootActive a = .store .vram (n - 0x8000)) ∧
    (0xA000 ≤ n → n ≤ 0xBFFF → decodeAddr r.bootActive a = .store .eram (n - 0xA000)) ∧
    (0xC000 ≤ n → n ≤ 0xFDFF → decodeAddr r.bootActive a = .store .wram (n % 8192)) ∧
    (0xFE00 ≤ n → n ≤ 0xFE9F → decodeAddr r.bootActive a = .store .oam (n - 0xFE00)) ∧
    (0xFEA0 ≤ n → n ≤ 0xFEFF → decodeAddr r.bootActive a = .unmapped) ∧
    (0xFF00 ≤ n → n ≤ 0xFF7F → decodeAddr r.bootActive a = .store .io (n - 0xFF00)) ∧
    (0xFF80 ≤ n → decodeAddr r.bootActive a = .store .hram (n - 0xFF80)) ∧
    (∀ id off, decodeAddr r.bootActive a = .store id off → off < id.size ∧ r.read a = .ok (r.byteAt id off)) ∧
    (decodeAddr r.bootActive a = .unmapped →
      r.read a = .error (.unmappedAccess a .read) ∧ r.write a v = .error (.unmappedAccess a .write)) ∧
    (n ≤ 0x7FFF → r.write a v = .error (.readOnlyViolation a v)) ∧
    (0x8000 ≤ n → decodeAddr r.bootActive a ≠ .unmapped → ∃ r', r.write a v = .ok r')

/-- R52: the boot overlay. The boot firmware backs 0x0000-0x00FF while `boot_active` is 1; under it those bytes of
bank 0 are reached by no address, and they are unchanged when the overlay goes. (The spec marks the clause on
0x0100-0x3FFF as derived by itself.) -/
def Obligations.BootOverlaySelectsFirmware : Prop :=
  (∀ (r : Router) (a : Word), a.toNat < 0x0100 →
      r.read a = .ok (if r.bootActive then r.byteAt .boot a.toNat else r.byteAt .rom0 a.toNat)) ∧
    (∀ (r : Router) (a : Word), 0x0100 ≤ a.toNat → a.toNat < 0x4000 → r.read a = .ok (r.byteAt .rom0 a.toNat)) ∧
    (∀ (r : Router) (c : Cartridge), r.bootActive = true →
      (∀ w off, w = .romx ∨ 0x0100 ≤ off → c.byteAt w off = r.cart.byteAt w off) →
      SameReads r { r with cart := c }) ∧
    ∀ (r : Router) (a : Word), a.toNat < 0x0100 →
      (r.setBootActive false).read a = .ok (r.byteAt .rom0 a.toNat)

/-- R53: the working-RAM mirror. After any writes both aliases read the same byte, and a write through either alias
changes the one byte both read. (The spec marks what each alias reaches as derived by itself.) -/
def Obligations.WorkingRamIsMirrored : Prop :=
  (∀ (r r' : Router) writes, r.writeAll writes = .ok r' → ∀ a : Word, 0xC000 ≤ a.toNat → a.toNat ≤ 0xFDFF →
      r'.read a = r'.read (BitVec.ofNat 16 (0xC000 + (a.toNat - 0xC000) % 8192))) ∧
    (∀ (r : Router) (a : Word) v, 0xC000 ≤ a.toNat → a.toNat ≤ 0xFDFF →
      ∃ r', r.write a v = .ok r' ∧ ∀ a' : Word, 0xC000 ≤ a'.toNat → a'.toNat ≤ 0xFDFF →
        r'.read a' = if a'.toNat % 8192 = a.toNat % 8192 then .ok v else r.read a') ∧
    ∀ (b : Bool) (a : Word) off, 0x1E00 ≤ off → decodeAddr b a = .store .wram off →
      0xDE00 ≤ a.toNat ∧ a.toNat ≤ 0xDFFF

/-- R54: every access to the unmapped hole fails, an opcode fetch and an operand fetch among them. A step whose fetch
fails changes nothing but the run state, and the operand byte at `pc + 1` fails before the one at `pc + 2`. (That
nothing else changes, that a fetch is recorded as a read, that an opcode fetch there is this fault, and the order of
the operand bytes are the spec's own decisions D10, D11, D25 and D22.) -/
def Obligations.UnmappedHoleFaultsEveryAccess : Prop :=
  (∀ (r : Router) (a : Word) v, InHole a →
      r.read a = .error (.unmappedAccess a .read) ∧ r.write a v = .error (.unmappedAccess a .write)) ∧
    (∀ s : State, s.run = .running → InHole s.pc →
      step s = .next { s with run := .halted (.unmappedAccess s.pc .read) }) ∧
    (∀ s : State, s.run = .running → s.read s.pc = .ok 0x01#8 → InHole (s.pc + 1#16) →
      step s = .next { s with run := .halted (.unmappedAccess (s.pc + 1#16) .read) }) ∧
    ∀ s : State, s.run = .running → s.read s.pc = .ok 0x01#8 → ¬ InHole (s.pc + 1#16) → InHole (s.pc + 2#16) →
      step s = .next { s with run := .halted (.unmappedAccess (s.pc + 2#16) .read) }

/-- R60 and R57: `read16` is the big-endian composition of its two reads, in this order, the second address modulo
2^16; its fault is the first one met. (The spec's own decisions D7, D8 and D22.) -/
def Obligations.Read16IsBigEndian : Prop :=
  (∀ (r : Router) a hi lo, r.read a = .ok hi → r.read (a + 1#16) = .ok lo →
      ∃ v, r.read16 a = .ok v ∧ v.toNat = hi.toNat * 256 + lo.toNat) ∧
    (∀ (r : Router) a f, r.read a = .error f → r.read16 a = .error f) ∧
    (∀ (r : Router) a hi f, r.read a = .ok hi → r.read (a + 1#16) = .error f → r.read16 a = .error f) ∧
    ∀ (r : Router) hi lo, r.read 0xFFFF#16 = .ok hi → r.read 0x0000#16 = .ok lo →
      ∃ v, r.read16 0xFFFF#16 = .ok v ∧ v.toNat = hi.toNat * 256 + lo.toNat

/-- R59: what a write does. It fails in the read-only windows whatever `boot_active` is, and in the hole; elsewhere
it changes exactly one byte of one store, and nothing else; a write inside a step is committed when the step retires
and discarded when it faults. -/
def Obligations.WriteChangesOneByteOrFaults : Prop :=
  (∀ (r : Router) (a : Word) v, a.toNat < 0x8000 → r.write a v = .error (.readOnlyViolation a v)) ∧
    (∀ (r : Router) (a : Word) v, InHole a → r.write a v = .error (.unmappedAccess a .write)) ∧
    (∀ (r : Router) (a : Word) v, 0x8000 ≤ a.toNat → ¬ InHole a →
      ∃ id off r', decodeAddr r.bootActive a = .store id off ∧ r.write a v = .ok r' ∧
        r'.bootActive = r.bootActive ∧ r'.cart = r.cart ∧
        ∀ jd j, r'.byteAt jd j = if jd = id ∧ j = off then v else r.byteAt jd j) ∧
    (∀ (s : State) a v t, s.memWrite a v = .ok t → t = { s with router := t.router }) ∧
    (∀ (s : State) e a v t, s.memWrite a v = .ok t → s.execute e (fun u => u.memWrite a v) = .next (t.retire e)) ∧
    ∀ (s : State) e a v t f, s.memWrite a v = .ok t →
      s.execute e (fun u => match u.memWrite a v with | .ok _ => .error f | .error g => .error g) =
        .next { s with run := .halted f }

/-- R70: installation sets the two windows from the image, with ABSENT_ROM where it does not reach, changes nothing
else, and shows no image byte at 0x8000 or above. (The spec's own decisions D14 and D15.) -/
def Obligations.InstallSetsBothWindows : Prop :=
  (∀ (r : Router) image w off, off < 0x4000 → (r.install image).cart.byteAt w off = imageByte image w off) ∧
    (∀ (r : Router) image off, off < 0x4000 →
      (r.install image).byteAt .rom0 off =
        (if h : off < image.length then image[off] else Config.absentRom .rom0 off) ∧
      (r.install image).byteAt .romx off =
        (if h : 0x4000 + off < image.length then image[0x4000 + off] else Config.absentRom .romx off)) ∧
    (∀ (r : Router) image id off, id ≠ .rom0 → id ≠ .romx → (r.install image).byteAt id off = r.byteAt id off) ∧
    (∀ (r : Router) image, (r.install image).bootActive = r.bootActive) ∧
    ∀ (r : Router) (image image' : List Byte), image.take 0x8000 = image'.take 0x8000 →
      SameReads (r.install image) (r.install image')

/-- R71: `boot`, `rom0` and `romx` have no write path. No writes and no host transaction but a reload change them,
and `boot` never changes. -/
def Obligations.RomIsNeverMutated : Prop :=
  (∀ writes (r r' : Router), r.writeAll writes = .ok r' → r'.boot = r.boot ∧ r'.cart = r.cart) ∧
    (∀ i s t, exec i s = .next t → t.router.boot = s.router.boot ∧ t.router.cart = s.router.cart) ∧
    (∀ events s, (runEvents events s).router.boot = s.router.boot) ∧
    ∀ events s, (∀ image, HostEvent.reload image ∉ events) → (runEvents events s).router.cart = s.router.cart

/-- R75: memory consistency. After any successful writes, in any session, a read returns the last write to the same
store byte through any alias, or the byte's first content if there was none. (The spec's own decision D20.) -/
def Obligations.ReadReturnsTheLastWrite : Prop :=
  (∀ writes (r r' : Router), r.writeAll writes = .ok r' → ∀ a id off, decodeAddr r'.bootActive a = .store id off →
      r'.read a = .ok ((lastWrite r.bootActive id off writes).getD (r.byteAt id off))) ∧
    ∀ p s writes r', construct p = .ok s → s.router.writeAll writes = .ok r' →
      ∀ a id off, decodeAddr r'.bootActive a = .store id off →
        r'.read a = .ok ((lastWrite true id off writes).getD (p.initialByte id off))

/-- No instruction writes memory, so no step and no host transaction changes a byte of a RAM store, from any state,
and in every session these stores keep their first contents. (The spec marks this consequence of R50 as derived by
itself.) -/
def Obligations.RamKeepsItsFirstContents : Prop :=
  (∀ s t, step s = .next t → ∀ id off, StoreId.writable id = true → t.router.byteAt id off = s.router.byteAt id off) ∧
    (∀ s e id off, StoreId.writable id = true →
      (afterEvent s e).router.byteAt id off = s.router.byteAt id off) ∧
    ∀ p s events, construct p = .ok s → ∀ id off, StoreId.writable id = true → off < StoreId.size id →
      (runEvents events s).router.byteAt id off = p.initialByte id off

/-- Instruction fetch sees a write at once: the first step after a write at `pc` runs the opcode written. (Derived
from R75 and R121 by the spec itself, in R77.) -/
def Obligations.FetchSeesTheLastWrite : Prop :=
  ∀ (s t : State) op, s.run = .running → s.memWrite s.pc op = .ok t →
    t.read t.pc = .ok op ∧ (op = 0x00#8 → step t = exec .nop t) ∧
      (op = 0x01#8 → ∀ d16, t.read16 (t.pc + 1#16) = .ok d16 → step t = exec (.ldBcD16 d16) t) ∧
      (2 ≤ op.toNat → step t = exec (.unimplemented op) t)

/-- Canonical stores with the same bytes are the same list: the representation hides no difference. -/
def Obligations.EqualBytesAreEqualStores : Prop :=
  ∀ size (m m' : Memory), Memory.wf size m = true → Memory.wf size m' = true →
    (∀ k, k < size → Memory.read m k = Memory.read m' k) → m = m'

/-! ## 30_encoding -/

/-- Decoding an encoded well-formed instruction gives it back, with every operand, and leaves the bytes after it. -/
def Obligations.DecodeOfEncode : Prop :=
  ∀ i rest, WellFormed i → decode (encode i ++ rest) = .ok (i, rest)

/-- Each encoding has one meaning: bytes that decode are the encoding of a well-formed instruction, and the decoder
refuses only a list that ends before its instruction does. (That such a list is refused is the model's choice of log
entry 11: the spec's decoder is total on opcode bytes and speaks of no list.) -/
def Obligations.EncodeOfDecode : Prop :=
  (∀ bytes i rest, decode bytes = .ok (i, rest) → WellFormed i ∧ bytes = encode i ++ rest) ∧
    ∀ bytes, (∀ i rest, decode bytes ≠ .ok (i, rest)) ↔
      bytes = [] ∨ ∃ operands, bytes = 0x01#8 :: operands ∧ operands.length < 2

/-- R103, R106: the decoder is total on the 256 opcode bytes, by the whole byte, and the length is known from it
alone: 1 for 0x00, 3 for 0x01; after any other opcode no byte is read. (That 0x00 is NOP is the spec's own decision
D5, and that no other byte has an entry or is a prefix is its decision D9.) -/
def Obligations.DecoderIsTotalOnOpcodes : Prop :=
  (∀ op b₁ b₂ rest, ∃ i, decode (op :: b₁ :: b₂ :: rest) = .ok (i, if op = 0x01#8 then rest else b₁ :: b₂ :: rest) ∧
      (i = .nop ↔ op = 0x00#8) ∧ ((∃ d16, i = .ldBcD16 d16) ↔ op = 0x01#8) ∧
      (i = .unimplemented op ↔ op ≠ 0x00#8 ∧ op ≠ 0x01#8)) ∧
    (∀ op, op ≠ 0x01#8 → ∃ i, decode [op] = .ok (i, [])) ∧
    ∀ (s : State) op, s.read s.pc = .ok op → op ≠ 0x00#8 → op ≠ 0x01#8 → s.fetchInstr = .ok (.unimplemented op)

/-- The dispatch table of R104, complete: for each opcode byte its format, length, cost and effect, and none from 0x02
on. (That 0x00 is NOP, that the pair is BC and that there is no further entry are the spec's own decisions D5, D6
and D9.) -/
def Obligations.DispatchTableIsComplete : Prop :=
  dispatchTable 0x00#8 = some { format := .op, length := 1, cost := { machine := 1#8, clock := 4#8 } } ∧
    dispatchTable 0x01#8 = some { format := .opImm16, length := 3, cost := { machine := 3#8, clock := 12#8 } } ∧
    (∀ op : Byte, 2 ≤ op.toNat → dispatchTable op = none) ∧
    (∀ s, exec .nop s = .next (s.retire nopEntry)) ∧
    (∀ d16 s, exec (.ldBcD16 d16) s = .next ((s.writePair .BC d16).retire ldBcD16Entry)) ∧
    ∀ (s : State) (op : Byte), 2 ≤ op.toNat →
      exec (.unimplemented op) s = .next (s.takeFault (.unimplementedOpcode op s.pc))

/-- Words written out from the encodings of R101 and R104 decode to the instructions they stand for. -/
def Obligations.WrittenOutWordsDecode : Prop :=
  decode [0x00#8] = .ok (.nop, []) ∧ decode [0x01#8, 0x34#8, 0x12#8] = .ok (.ldBcD16 0x3412#16, []) ∧
    decode [0x02#8] = .ok (.unimplemented 0x02#8, []) ∧ decode [0xCB#8, 0x11#8] = .ok (.unimplemented 0xCB#8, [0x11#8]) ∧
    decode [0xFF#8] = .ok (.unimplemented 0xFF#8, [])

/-! ## 40_engine -/

/-- A step of a running session runs the instruction whose bytes stand at `pc`: it is `exec` of that instruction at
that state. (The advance of `pc` is part of the meanings.) -/
def Obligations.StepRunsTheDecodedInstruction : Prop :=
  ∀ (s : State) i, s.run = .running → WellFormed i →
    (∀ k (h : k < (encode i).length), s.read (s.pc + BitVec.ofNat 16 k) = .ok (encode i)[k]) → step s = exec i s

/-- R129: the whole step, for every state, with what it returns to its caller. (The opcode of NOP, the pair, the byte
order, the wrap, the all-or-nothing commit and the terminal halt are the spec's own decisions D5 to D8, D10 and D12.) -/
def Obligations.StepIsTheWholeStep : Prop :=
  (∀ (s : State) f, s.run = .halted f → step s = .fault f) ∧
    ∀ s : State, s.run = .running →
      (∀ f, s.read s.pc = .error f →
        ∃ t, step s = .next t ∧ t = { s with run := .halted f } ∧ t.stepResult = .error f) ∧
      (s.read s.pc = .ok 0x00#8 →
        ∃ t, step s = .next t ∧ t = { s with lastM := 1#8, lastT := 4#8, pc := s.pc + 1#16 } ∧
          t.stepResult = .ok { machine := 1#8, clock := 4#8 }) ∧
      (s.read s.pc = .ok 0x01#8 →
        (∀ f, s.read16 (s.pc + 1#16) = .error f →
          ∃ t, step s = .next t ∧ t = { s with run := .halted f } ∧ t.stepResult = .error f) ∧
        ∀ d16, s.read16 (s.pc + 1#16) = .ok d16 →
          ∃ t, step s = .next t ∧
            t = { s with regs := { s.regs with b := hiByte d16, c := loByte d16 },
                         lastM := 3#8, lastT := 12#8, pc := s.pc + 3#16 } ∧
            t.stepResult = .ok { machine := 3#8, clock := 12#8 }) ∧
      ∀ op, s.read s.pc = .ok op → op ≠ 0x00#8 → op ≠ 0x01#8 →
        ∃ t, step s = .next t ∧ t = { s with run := .halted (.unimplementedOpcode op s.pc) } ∧
          t.stepResult = .error (.unimplementedOpcode op s.pc)

/-- R125: RETIRE. An instruction whose effect raised nothing commits it with its entry's fixed cost, not accumulated,
and with `pc` advanced by the entry's length modulo 2^16; the run state stays as it was and the cost is returned. -/
def Obligations.RetireRecordsCostAndAdvances : Prop :=
  ∀ (s t : State) e effect, effect s = .ok t → t.run = .running →
    ∃ u, s.execute e effect = .next u ∧ u = { t with lastM := u.lastM, lastT := u.lastT, pc := u.pc } ∧
      u.lastM = e.cost.machine ∧ u.lastT = e.cost.clock ∧ u.pc.toNat = (t.pc.toNat + e.length) % 0x10000 ∧
      u.run = .running ∧ u.stepResult = .ok e.cost

/-- R127: the fault path. A step that faults discards every staged write: the next state is the state before it but
for the run state, and the caller gets the fault; so for whatever effect raised it. (The spec's own decision D10.) -/
def Obligations.FaultPathCommitsNothing : Prop :=
  (∀ s t f, step s = .next t → t.run = .halted f → t = { s with run := .halted f } ∧ t.stepResult = .error f) ∧
    (∀ (s : State) e effect f, effect s = .error f → s.execute e effect = .next { s with run := .halted f }) ∧
    ∀ (s : State) f, s.run = .running → s.fetchInstr = .error f → step s = .next { s with run := .halted f }

/-- A step of a running session always answers a next state, a step of a halted one never does, and no step is
refused. (That a step which faults is a next state, and that `fault` is the answer of a halted session only, is the
model's choice of log entry 1.) -/
def Obligations.RunningStepAlwaysAnswers : Prop :=
  (∀ s, (∃ t, step s = .next t) ↔ s.run = .running) ∧ ∀ s r, step s ≠ .refused r

/-- R128: an opcode without a table entry raises UnimplementedOpcode with the opcode and `pc`, and changes nothing but
the run state, whatever stands after it. -/
def Obligations.UnimplementedOpcodeHalts : Prop :=
  (∀ (op : Byte) (s : State), 2 ≤ op.toNat →
      exec (.unimplemented op) s = .next { s with run := .halted (.unimplementedOpcode op s.pc) }) ∧
    ∀ (s : State) (op : Byte), s.run = .running → s.read s.pc = .ok op → 2 ≤ op.toNat →
      step s = .next { s with run := .halted (.unimplementedOpcode op s.pc) }

/-! ## 41_control_nop and 42_load16 -/

/-- R141: NOP, from any address and any state. It retires with `pc + 1` and reports (1, 4), and the totals of a
`run_cycle` increase by exactly those amounts. -/
def Obligations.NopRetires : Prop :=
  (∀ s : State, exec .nop s = .next { s with lastM := 1#8, lastT := 4#8, pc := s.pc + 1#16 }) ∧
    ∀ s : State, s.run = .running → s.fetchInstr = .ok .nop →
      (∃ t, step s = .next t ∧ t = { s with lastM := 1#8, lastT := 4#8, pc := s.pc + 1#16 } ∧
        t.stepResult = .ok { machine := 1#8, clock := 4#8 }) ∧
      ∃ t, runCycle s = .next t ∧ t.pc = s.pc + 1#16 ∧ t.totalM = s.totalM + 1#64 ∧ t.totalT = s.totalT + 4#64

/-- R151: LD BC,d16, from any address and any state, advances `pc` by 3 and reports (3, 12). -/
def Obligations.LoadAdvancesByThree : Prop :=
  (ldBcD16Entry.length = 3 ∧ ldBcD16Entry.cost = { machine := 3#8, clock := 12#8 }) ∧
    ∀ (s : State) d16, s.run = .running → s.fetchInstr = .ok (.ldBcD16 d16) →
      ∃ t, step s = .next t ∧ t.pc = s.pc + 3#16 ∧ t.stepResult = .ok { machine := 3#8, clock := 12#8 }

/-- R150 to R152: LD BC,d16 from any address and any state. B takes the byte at `pc + 1` and C the byte at `pc + 2`,
F is unchanged, and it retires with `pc + 3` modulo 2^16 and (3, 12); an operand in the hole faults with the first
such address and changes nothing but the run state. (The pair and the byte order are the spec's own decisions D6
and D7.) -/
def Obligations.LoadBCTakesItsImmediate : Prop :=
  (∀ (d16 : Word) (s : State), exec (.ldBcD16 d16) s =
      .next { s with regs := { s.regs with b := hiByte d16, c := loByte d16 },
                     lastM := 3#8, lastT := 12#8, pc := s.pc + 3#16 }) ∧
    ∀ s : State, s.run = .running → s.read s.pc = .ok 0x01#8 →
      (∀ immHi immLo, s.read (s.pc + 1#16) = .ok immHi → s.read (s.pc + 2#16) = .ok immLo →
        ∃ t, step s = .next t ∧ t = { s with regs := { s.regs with b := immHi, c := immLo },
                                             lastM := 3#8, lastT := 12#8, pc := s.pc + 3#16 } ∧
          (t.readPair .BC).toNat = immHi.toNat * 256 + immLo.toNat ∧
          t.stepResult = .ok { machine := 3#8, clock := 12#8 }) ∧
      (InHole (s.pc + 1#16) → step s = .next { s with run := .halted (.unmappedAccess (s.pc + 1#16) .read) }) ∧
      (¬ InHole (s.pc + 1#16) → InHole (s.pc + 2#16) →
        step s = .next { s with run := .halted (.unmappedAccess (s.pc + 2#16) .read) })

/-- The frame of NOP, of LD BC,d16 and of the unimplemented class. None stores to memory. NOP leaves every register;
LD BC,d16 every register but B and C; the unimplemented class everything but the run state. Flags, `sp`, the boot
flag, the totals and the lifecycle are unchanged by all three, the run state by the first two. -/
def Obligations.InstructionFrames : Prop :=
  (∀ i s t, exec i s = .next t →
      (∀ a, t.read a = s.read a) ∧ (∀ id off, t.router.byteAt id off = s.router.byteAt id off) ∧
        t.router.bootActive = s.router.bootActive ∧ t.sp = s.sp ∧ (∀ x, t.flag x = s.flag x) ∧
        t.readReg .F = s.readReg .F ∧ t.totalM = s.totalM ∧ t.totalT = s.totalT ∧ t.lifecycle = s.lifecycle) ∧
    (∀ s t, exec .nop s = .next t → (∀ r, t.readReg r = s.readReg r) ∧ t.run = s.run) ∧
    (∀ d16 s t, exec (.ldBcD16 d16) s = .next t →
      (∀ r, r ≠ .B → r ≠ .C → t.readReg r = s.readReg r) ∧ t.run = s.run) ∧
    ∀ op s t, exec (.unimplemented op) s = .next t →
      (∀ r, t.readReg r = s.readReg r) ∧ t.pc = s.pc ∧ t.lastM = s.lastM ∧ t.lastT = s.lastT

/-! ## 60_exceptions and 70_reset_and_hazards -/

/-- R160: ReadOnlyViolation is raised by every write below 0x8000, whatever `boot_active` is, with its address and
value, and by nothing else: by no other write, by no read, by no construction, and by no transaction of a running
session. It halts the core through the step that issued the write; no step of this edition raises it. (The payload and
the code are the spec's own decision D11, and that no step raises it is marked as derived by the spec.) -/
def Obligations.ReadOnlyViolationOnlyFromWrites : Prop :=
  (∀ (r : Router) (a : Word) v, a.toNat < 0x8000 → r.write a v = .error (.readOnlyViolation a v)) ∧
    (∀ (r : Router) a v a' v', r.write a v = .error (.readOnlyViolation a' v') →
      a' = a ∧ v' = v ∧ a.toNat < 0x8000) ∧
    (∀ (r : Router) a a' v', r.read a ≠ .error (.readOnlyViolation a' v') ∧
      r.read16 a ≠ .error (.readOnlyViolation a' v')) ∧
    (∀ p a v, construct p ≠ .error (.readOnlyViolation a v)) ∧
    (∀ s e a v, s.run = .running → (afterEvent s e).run ≠ .halted (.readOnlyViolation a v)) ∧
    (∀ (s : State) e (a : Word) v, a.toNat < 0x8000 →
      s.execute e (fun t => t.memWrite a v) = .next { s with run := .halted (.readOnlyViolation a v) }) ∧
    (∀ s t a v, step s = .next t → t.run ≠ .halted (.readOnlyViolation a v)) ∧
    ∀ a v, Fault.code (.readOnlyViolation a v) = 1

/-- R161: UnmappedAccess is raised by the opcode fetch in the hole, whatever byte would be there, by an operand fetch
of LD BC,d16 in the hole, and by a write into the hole; nothing else of a step raises it. (The payload and the code
are the spec's own decision D11.) -/
def Obligations.UnmappedAccessOnlyFromTheHole : Prop :=
  (∀ s t a k, step s = .next t → t.run = .halted (.unmappedAccess a k) →
      k = .read ∧ InHole a ∧
        (a = s.pc ∨ (s.read s.pc = .ok 0x01#8 ∧
          (a = s.pc + 1#16 ∨ (a = s.pc + 2#16 ∧ ¬ InHole (s.pc + 1#16)))))) ∧
    (∀ s : State, s.run = .running → InHole s.pc →
      ∃ t, step s = .next t ∧ t.run = .halted (.unmappedAccess s.pc .read)) ∧
    (∀ s : State, s.run = .running → s.read s.pc = .ok 0x01#8 → InHole (s.pc + 1#16) ∨ InHole (s.pc + 2#16) →
      ∃ t a, step s = .next t ∧ InHole a ∧ t.run = .halted (.unmappedAccess a .read)) ∧
    (∀ (r : Router) a v, InHole a → r.write a v = .error (.unmappedAccess a .write)) ∧
    ∀ a k, Fault.code (.unmappedAccess a k) = 2

/-- R162: UnimplementedOpcode is raised exactly when the fetched opcode has no table entry; it records that opcode and
its `pc`, halts the core, and leaves everything else as it was. (The code is the spec's own decision D11.) -/
def Obligations.UnimplementedOpcodeExactlyWithoutEntry : Prop :=
  (∀ s t op p, step s = .next t →
      (t.run = .halted (.unimplementedOpcode op p) ↔ s.read s.pc = .ok op ∧ dispatchTable op = none ∧ p = s.pc)) ∧
    (∀ s t op p, step s = .next t → t.run = .halted (.unimplementedOpcode op p) →
      t = { s with run := .halted (.unimplementedOpcode op p) } ∧ step t = .fault (.unimplementedOpcode op p)) ∧
    (∀ op : Byte, dispatchTable op = none ↔ 0x02 ≤ op.toNat) ∧ ∀ op p, Fault.code (.unimplementedOpcode op p) = 3

/-- R163: an image shorter than 0x0150 bytes is refused: construction creates no session, a reload halts the session
and changes nothing else; 0x0150 bytes are accepted; no step raises CartridgeTooSmall. (The spec's own decisions D11
and D18.) -/
def Obligations.ShortCartridgesAreRefused : Prop :=
  (∀ p : PowerOn, p.cartImage.length < 0x0150 → construct p = .error (.cartridgeTooSmall p.cartImage.length)) ∧
    (∀ p : PowerOn, 0x0150 ≤ p.cartImage.length → ∃ s, construct p = .ok s) ∧
    (∀ (s : State) image, s.run = .running → image.length < 0x0150 →
      reload image s = .next { s with run := .halted (.cartridgeTooSmall image.length) }) ∧
    (∀ (s : State) image, s.run = .running → 0x0150 ≤ image.length →
      ∃ t, reload image s = .next t ∧ t.run = .running) ∧
    (∀ s t n, step s = .next t → t.run ≠ .halted (.cartridgeTooSmall n)) ∧ ∀ n, Fault.code (.cartridgeTooSmall n) = 4

/-- R167: priority. The first access or decode that fails gives the step's only fault: the fetch, then the decode,
then `pc + 1`, then `pc + 2`; at 0xFE9F, LD BC,d16 faults on 0xFEA0, and so it does at 0xFE9E, where `pc + 2` is the
first access that fails. (The spec's own decisions D22 and D25.) -/
def Obligations.FirstFailureGivesTheFault : Prop :=
  ∀ s : State, s.run = .running →
    (InHole s.pc → step s = .next (s.takeFault (.unmappedAccess s.pc .read))) ∧
    (∀ op : Byte, s.read s.pc = .ok op → 2 ≤ op.toNat → InHole (s.pc + 1#16) →
      step s = .next (s.takeFault (.unimplementedOpcode op s.pc))) ∧
    (s.read s.pc = .ok 0x01#8 → InHole (s.pc + 1#16) →
      step s = .next (s.takeFault (.unmappedAccess (s.pc + 1#16) .read))) ∧
    (s.read s.pc = .ok 0x01#8 → ¬ InHole (s.pc + 1#16) → InHole (s.pc + 2#16) →
      step s = .next (s.takeFault (.unmappedAccess (s.pc + 2#16) .read))) ∧
    (s.pc = 0xFE9F#16 ∨ s.pc = 0xFE9E#16 → s.read s.pc = .ok 0x01#8 →
      step s = .next (s.takeFault (.unmappedAccess 0xFEA0#16 .read)))

/-- R181: `run_cycle` delegates one step, adds the cost it returned to the totals modulo 2^64, and leaves the totals
when the step faulted. (The wrap is the spec's own decision D19.) -/
def Obligations.RunCycleAddsTheStepCost : Prop :=
  (∀ s t cost, step s = .next t → t.stepResult = .ok cost →
      ∃ u, runCycle s = .next u ∧ u.totalM.toNat = (s.totalM.toNat + cost.machine.toNat) % 2 ^ 64 ∧
        u.totalT.toNat = (s.totalT.toNat + cost.clock.toNat) % 2 ^ 64 ∧
        u = { t with totalM := u.totalM, totalT := u.totalT, lifecycle := u.lifecycle }) ∧
    (∀ s t f, step s = .next t → t.stepResult = .error f →
      ∃ u, runCycle s = .next u ∧ u.stepResult = .error f ∧ u = { t with lifecycle := u.lifecycle } ∧
        u.totalM = s.totalM ∧ u.totalT = s.totalT) ∧
    ∀ s f, step s = .fault f → runCycle s = .fault f

/-- The clock total is 4 times the machine total, modulo 2^64, and the clock counter 4 times the machine counter: every
construction has it so, every step keeps it for the counters and every host transaction for both, from any state, so
every session has it so. (The spec marks the factor as derived by itself, in R7 and R180; the widths and the wrap are
its own decision D19.) -/
def Obligations.ClockTotalIsFourTimesMachineTotal : Prop :=
  (∀ p s, construct p = .ok s → s.totalT = 4#64 * s.totalM ∧ s.lastT = 4#8 * s.lastM) ∧
    (∀ s t, s.lastT = 4#8 * s.lastM → step s = .next t → t.lastT = 4#8 * t.lastM) ∧
    (∀ s e, s.totalT = 4#64 * s.totalM → s.lastT = 4#8 * s.lastM →
      (afterEvent s e).totalT = 4#64 * (afterEvent s e).totalM ∧
        (afterEvent s e).lastT = 4#8 * (afterEvent s e).lastM) ∧
    ∀ s, Reachable s → s.totalT = 4#64 * s.totalM ∧ s.lastT = 4#8 * s.lastM

/-- R203: the lifecycle. A failed `new` leaves Unloaded, a successful one enters Loaded, the first `run_cycle` of a
running core enters Running, nothing goes back, and `set_boot_active(false)` clears the flag in either state and
changes neither. (The events are the spec's own decisions D17 and D28; that the first `run_cycle` does so even when its
step faults is the model's reading, log entry 7.) -/
def Obligations.LifecycleOnlyGoesForward : Prop :=
  (∀ p f, construct p = .error f → lifecycleAfterNew (construct p) = .unloaded) ∧
    (∀ p s, construct p = .ok s → lifecycleAfterNew (construct p) = .loaded ∧ s.router.bootActive = true) ∧
    (∀ s : State, s.run = .running → ∃ t, runCycle s = .next t ∧ t.lifecycle = .running) ∧
    (∀ (s : State) e, e ≠ .runCycle → (afterEvent s e).lifecycle = s.lifecycle) ∧
    (∀ (s : State) events, s.lifecycle = .running → (runEvents events s).lifecycle = .running) ∧
    (∀ (s : State) events, s.lifecycle = .loaded → (runEvents events s).lifecycle ≠ .unloaded) ∧
    ∀ s : State, s.run = .running →
      ∃ t, setBootActive false s = .next t ∧ t.router.bootActive = false ∧ t.lifecycle = s.lifecycle

/-- R212: host inputs take effect at the next step's first fetch: after `set_boot_active(false)` it reads bank 0 at the
same `pc`, after a reload it reads the new image. (The spec's own decision D23.) -/
def Obligations.HostInputsActOnTheNextFetch : Prop :=
  (∀ s t : State, setBootActive false s = .next t → s.run = .running → s.pc.toNat < 0x0100 →
      t.pc = s.pc ∧ t.read t.pc = .ok (s.router.byteAt .rom0 s.pc.toNat)) ∧
    (∀ (s t : State) image, s.run = .running → 0x0150 ≤ image.length → reload image s = .next t →
      0x0100 ≤ s.pc.toNat ∨ s.router.bootActive = false → s.pc.toNat < 0x4000 →
        t.pc = s.pc ∧ t.read t.pc = .ok (imageByte image .rom0 s.pc.toNat)) ∧
    ∀ (s t : State) image, s.run = .running → 0x0150 ≤ image.length → reload image s = .next t →
      0x4000 ≤ s.pc.toNat → s.pc.toNat < 0x8000 →
        t.pc = s.pc ∧ t.read t.pc = .ok (imageByte image .romx (s.pc.toNat - 0x4000))

/-! ## Invariants of every step and of every session -/

/-- The invariant holds at reset. -/
def Obligations.ResetMeetsTheInvariant : Prop := State.reset.Inv

/-- Every step keeps the invariant: F's low nibble, the canonical stores, the counters' costs, a legal fault record,
a loaded session. -/
def Obligations.StepKeepsTheInvariant : Prop := ∀ s t, s.Inv → step s = .next t → t.Inv

/-- Every construction meets the invariant and every host transaction keeps it, so every session meets it. -/
def Obligations.SessionsKeepTheInvariant : Prop :=
  (∀ s e, State.Inv s → State.Inv (afterEvent s e)) ∧ ∀ s, Reachable s → s.Inv

/-- A write, a placement of an instruction (log entry 8) and a list of writes keep the canonical form of the stores. -/
def Obligations.MemoryOperationsKeepTheForm : Prop :=
  (∀ (s t : State) a v, s.Inv → s.memWrite a v = .ok t → t.Inv) ∧
    (∀ (s : State) n w, s.Inv → (s.withFetchWord n w).Inv) ∧
    ∀ writes (r r' : Router), r.wf = true → r.writeAll writes = .ok r' → r'.wf = true

/-- What the overlay hides has no influence: while `boot_active` is 1, two sessions that differ only in bank 0's first
256 bytes stay in lockstep under any number of `run_cycle`s. -/
def Obligations.HiddenBankBytesDoNotInfluenceSteps : Prop :=
  ∀ (s : State) (c : Cartridge) n, s.router.bootActive = true →
    (∀ w off, w = .romx ∨ 0x0100 ≤ off → c.byteAt w off = s.router.cart.byteAt w off) →
    runEvents (List.replicate n .runCycle) { s with router := { s.router with cart := c } } =
      let t := runEvents (List.replicate n .runCycle) s
      { t with router := { t.router with cart := c } }

/-- A word placed for the fetch is the instruction the next step runs, wherever its bytes can stand (log entry 8). -/
def Obligations.PlacedWordIsRun : Prop :=
  ∀ (s : State) nbits w i, decodeTableWord nbits w = some i →
    (∀ k, k < (encode i).length → ¬ InHole (s.pc + BitVec.ofNat 16 k)) →
    step (s.withFetchWord nbits w) = exec i (s.withFetchWord nbits w)
end

