-- ==== Sys2Proof/Laws/Encoding.lean ====
section
/-! SUPPORT. The laws of byte order, the dispatch table and the decoder. -/

namespace Sys2Proof

theorem hiByte_joinBytes (hi lo : Byte) : hiByte (joinBytes hi lo) = hi := by
  exact BitVec.extractLsb'_append_eq_left

theorem loByte_joinBytes (hi lo : Byte) : loByte (joinBytes hi lo) = lo := by
  exact BitVec.extractLsb'_append_eq_right

theorem joinBytes_hi_lo (v : Word) : joinBytes (hiByte v) (loByte v) = v := by
  simp only [joinBytes, hiByte, loByte]
  rw [BitVec.extractLsb'_append_extractLsb'_eq_extractLsb' (by omega)]
  simp

theorem instrOf_zero (d16 : Word) : instrOf 0x00#8 d16 = .nop := rfl

theorem instrOf_one (d16 : Word) : instrOf 0x01#8 d16 = .ldBcD16 d16 := rfl

theorem byte_ne_of_two_le {op : Byte} (h : 2 ≤ op.toNat) : op ≠ 0x00#8 ∧ op ≠ 0x01#8 := by
  constructor <;> rintro rfl <;> simp at h

theorem two_le_of_byte_ne {op : Byte} (h0 : op ≠ 0x00#8) (h1 : op ≠ 0x01#8) : 2 ≤ op.toNat := by
  have h0' : op.toNat ≠ 0 := fun e => h0 (BitVec.eq_of_toNat_eq e)
  have h1' : op.toNat ≠ 1 := fun e => h1 (BitVec.eq_of_toNat_eq e)
  omega

theorem instrOf_unimplemented {op : Byte} (h : 2 ≤ op.toNat) (d16 : Word) : instrOf op d16 = .unimplemented op := by
  simp [instrOf, byte_ne_of_two_le h]

theorem dispatchTable_unimplemented {op : Byte} (h : 2 ≤ op.toNat) : dispatchTable op = none := by
  simp [dispatchTable, byte_ne_of_two_le h]

theorem operandCount_zero : operandCount 0x00#8 = 0 := rfl

theorem operandCount_one : operandCount 0x01#8 = 2 := rfl

theorem operandCount_unimplemented {op : Byte} (h : 2 ≤ op.toNat) : operandCount op = 0 := by
  simp [operandCount, dispatchTable_unimplemented h]

/-- Every opcode byte is NOP's, LD BC,d16's, or of the unimplemented class (R103, R105). -/
theorem opcode_cases (op : Byte) : op = 0x00#8 ∨ op = 0x01#8 ∨ 2 ≤ op.toNat := by
  by_cases h0 : op = 0x00#8
  · exact .inl h0
  · by_cases h1 : op = 0x01#8
    · exact .inr (.inl h1)
    · exact .inr (.inr (two_le_of_byte_ne h0 h1))

theorem dispatchTable_none (op : Byte) : dispatchTable op = none ↔ 2 ≤ op.toNat := by
  rcases opcode_cases op with rfl | rfl | h
  · simp [dispatchTable]
  · simp [dispatchTable]
  · simp [dispatchTable_unimplemented h, h]

theorem joinBytes_toNat (hi lo : Byte) : (joinBytes hi lo).toNat = hi.toNat * 256 + lo.toNat := by
  have := lo.isLt
  rw [joinBytes, BitVec.toNat_append, ← Nat.shiftLeft_add_eq_or_of_lt (by omega) hi.toNat, Nat.shiftLeft_eq]

theorem wellFormed_unimplemented (op : Byte) : WellFormed (.unimplemented op) ↔ 2 ≤ op.toNat := by
  simp [WellFormed, Instr.wellFormed]

end Sys2Proof
end

