-- ==== Sys2Proof/Laws/Memory.lean ====
section
/-! SUPPORT. The laws of a store's bytes: a read after a write, the canonical form, and a byte sequence as a store. -/

namespace Sys2Proof.Machine

theorem Memory.read_erase (m : Memory) (k j : Nat) :
    Memory.read (Memory.erase m k) j = if j = k then Memory.unlisted else Memory.read m j := by
  induction m with
  | nil => simp [Memory.erase, Memory.read]
  | cons cell rest ih =>
    obtain ⟨a, b⟩ := cell
    by_cases ha : a = k
    · subst ha
      by_cases hj : j = a
      · simpa [Memory.erase, hj] using ih
      · simp [Memory.erase, Memory.read, ih, hj, Ne.symm hj]
    · by_cases haj : a = j
      · subst haj
        simp [Memory.erase, Memory.read, ha]
      · simp [Memory.erase, Memory.read, ha, haj, ih]

theorem Memory.read_insert (m : Memory) (k j : Nat) (v : Byte) (h : Memory.read m k = Memory.unlisted)
    (hk : ∀ b, (k, b) ∉ m) :
    Memory.read (Memory.insert m k v) j = if j = k then v else Memory.read m j := by
  induction m with
  | nil => simp [Memory.insert, Memory.read, eq_comm]
  | cons cell rest ih =>
    obtain ⟨a, b⟩ := cell
    have hak : a ≠ k := fun e => hk b (e ▸ List.mem_cons_self)
    have hrest : ∀ c, (k, c) ∉ rest := fun c hc => hk c (List.mem_cons_of_mem _ hc)
    by_cases hlt : k < a
    · simp [Memory.insert, Memory.read, hlt, eq_comm]
    · have ih' := ih (by simpa [Memory.read, hak] using h) hrest
      by_cases haj : a = j
      · subst haj
        simp [Memory.insert, Memory.read, hlt, hak]
      · simp [Memory.insert, Memory.read, hlt, haj, ih']

theorem Memory.not_mem_erase (m : Memory) (k : Nat) (b : Byte) : (k, b) ∉ Memory.erase m k := by
  induction m with
  | nil => simp [Memory.erase]
  | cons cell rest ih =>
    obtain ⟨a, c⟩ := cell
    by_cases ha : a = k
    · simpa [Memory.erase, ha] using ih
    · simp [Memory.erase, ha, ih, Ne.symm ha]

/-- A read after a write, of a store in any form. -/
theorem Memory.read_write (m : Memory) (k j : Nat) (v : Byte) :
    Memory.read (Memory.write m k v) j = if j = k then v else Memory.read m j := by
  unfold Memory.write
  by_cases hv : v = Memory.unlisted
  · simp [hv, Memory.read_erase]
  · have h : Memory.read (Memory.erase m k) k = Memory.unlisted := by simp [Memory.read_erase]
    rw [if_neg hv, Memory.read_insert _ _ _ _ h (Memory.not_mem_erase m k), Memory.read_erase]
    by_cases hj : j = k <;> simp [hj]

theorem Memory.wfFrom_mono {size lo lo' : Nat} {m : Memory} (hlo : lo ≤ lo') (h : Memory.wfFrom size lo' m = true) :
    Memory.wfFrom size lo m = true := by
  cases m with
  | nil => rfl
  | cons cell rest =>
    obtain ⟨a, b⟩ := cell
    simp only [Memory.wfFrom, Bool.and_eq_true, decide_eq_true_eq] at h ⊢
    exact ⟨⟨⟨Nat.le_trans hlo h.1.1.1, h.1.1.2⟩, h.1.2⟩, h.2⟩

theorem Memory.wfFrom_size {size size' lo : Nat} {m : Memory} (hs : size ≤ size')
    (h : Memory.wfFrom size lo m = true) : Memory.wfFrom size' lo m = true := by
  induction m generalizing lo with
  | nil => rfl
  | cons cell rest ih =>
    obtain ⟨a, b⟩ := cell
    simp only [Memory.wfFrom, Bool.and_eq_true, decide_eq_true_eq] at h ⊢
    exact ⟨⟨⟨h.1.1.1, Nat.lt_of_lt_of_le h.1.1.2 hs⟩, h.1.2⟩, ih h.2⟩

theorem Memory.erase_wfFrom {size lo : Nat} {m : Memory} (k : Nat) (h : Memory.wfFrom size lo m = true) :
    Memory.wfFrom size lo (Memory.erase m k) = true := by
  induction m generalizing lo with
  | nil => rfl
  | cons cell rest ih =>
    obtain ⟨a, b⟩ := cell
    simp only [Memory.wfFrom, Bool.and_eq_true, decide_eq_true_eq] at h
    by_cases ha : a = k
    · simp only [Memory.erase, ha, if_true]
      exact ih (Memory.wfFrom_mono (by omega) h.2)
    · simp only [Memory.erase, ha, if_false, Memory.wfFrom, Bool.and_eq_true, decide_eq_true_eq]
      exact ⟨h.1, ih h.2⟩

theorem Memory.insert_wfFrom {size lo k : Nat} {m : Memory} {v : Byte} (h : Memory.wfFrom size lo m = true)
    (hk : ∀ b, (k, b) ∉ m) (hlo : lo ≤ k) (hs : k < size) (hv : v ≠ Memory.unlisted) :
    Memory.wfFrom size lo (Memory.insert m k v) = true := by
  induction m generalizing lo with
  | nil => simp [Memory.insert, Memory.wfFrom, hlo, hs, hv]
  | cons cell rest ih =>
    obtain ⟨a, b⟩ := cell
    have hak : a ≠ k := fun e => hk b (e ▸ List.mem_cons_self)
    simp only [Memory.wfFrom, Bool.and_eq_true, decide_eq_true_eq] at h
    by_cases hlt : k < a
    · simp only [Memory.insert, hlt, if_true, Memory.wfFrom, Bool.and_eq_true, decide_eq_true_eq, bne_iff_ne]
      exact ⟨⟨⟨hlo, hs⟩, hv⟩, ⟨⟨hlt, h.1.1.2⟩, by simpa using h.1.2⟩, h.2⟩
    · simp only [Memory.insert, hlt, if_false, Memory.wfFrom, Bool.and_eq_true, decide_eq_true_eq]
      exact ⟨h.1, ih h.2 (fun c hc => hk c (List.mem_cons_of_mem _ hc)) (by omega)⟩

/-- A write keeps the canonical form. -/
theorem Memory.write_wf {size k : Nat} {m : Memory} (v : Byte) (h : Memory.wf size m = true) (hk : k < size) :
    Memory.wf size (Memory.write m k v) = true := by
  unfold Memory.write
  by_cases hv : v = Memory.unlisted
  · rw [if_pos hv]
    exact Memory.erase_wfFrom k h
  · rw [if_neg hv]
    exact Memory.insert_wfFrom (Memory.erase_wfFrom k h) (Memory.not_mem_erase m k) (Nat.zero_le k) hk hv

theorem Memory.ofListFrom_wfFrom (k size : Nat) (bytes : List Byte) (h : k + bytes.length ≤ size) :
    Memory.wfFrom size k (Memory.ofListFrom k bytes) = true := by
  induction bytes generalizing k with
  | nil => rfl
  | cons b rest ih =>
    simp only [List.length_cons] at h
    have hrest := ih (k + 1) (by omega)
    by_cases hb : b = Memory.unlisted
    · simpa [Memory.ofListFrom, hb] using Memory.wfFrom_mono (Nat.le_succ k) hrest
    · simp only [Memory.ofListFrom, hb, if_false, Memory.wfFrom, Bool.and_eq_true, decide_eq_true_eq, bne_iff_ne]
      exact ⟨⟨⟨Nat.le_refl k, by omega⟩, hb⟩, hrest⟩

/-- A byte sequence that fits is in canonical form. -/
theorem Memory.ofList_wf {size : Nat} {bytes : List Byte} (h : bytes.length ≤ size) :
    Memory.wf size (Memory.ofList bytes) = true :=
  Memory.ofListFrom_wfFrom 0 size bytes (by omega)

theorem Memory.read_ofListFrom_lt (k j : Nat) (bytes : List Byte) (h : j < k) :
    Memory.read (Memory.ofListFrom k bytes) j = Memory.unlisted := by
  induction bytes generalizing k with
  | nil => rfl
  | cons b rest ih =>
    by_cases hb : b = Memory.unlisted
    · simpa [Memory.ofListFrom, hb] using ih (k + 1) (by omega)
    · simpa [Memory.ofListFrom, hb, Memory.read, show k ≠ j by omega] using ih (k + 1) (by omega)

theorem Memory.read_ofListFrom (k j : Nat) (bytes : List Byte) :
    Memory.read (Memory.ofListFrom k bytes) (k + j) = bytes.getD j Memory.unlisted := by
  induction bytes generalizing k j with
  | nil => rfl
  | cons b rest ih =>
    cases j with
    | zero =>
      by_cases hb : b = Memory.unlisted
      · simpa [Memory.ofListFrom, hb] using Memory.read_ofListFrom_lt (k + 1) k rest (by omega)
      · simp [Memory.ofListFrom, hb, Memory.read]
    | succ j =>
      have h := ih (k + 1) j
      rw [show k + 1 + j = k + (j + 1) by omega] at h
      by_cases hb : b = Memory.unlisted
      · simpa [Memory.ofListFrom, hb] using h
      · simpa [Memory.ofListFrom, hb, Memory.read] using h

/-- A byte sequence reads back, and what lies beyond it is not listed. -/
theorem Memory.read_ofList (bytes : List Byte) (j : Nat) :
    Memory.read (Memory.ofList bytes) j = bytes.getD j Memory.unlisted := by
  rw [Memory.ofList, ← Memory.read_ofListFrom 0 j bytes, Nat.zero_add]

theorem Memory.ofListFrom_replicate_unlisted (k n : Nat) :
    Memory.ofListFrom k (List.replicate n Memory.unlisted) = [] := by
  induction n generalizing k with
  | zero => rfl
  | succ n ih => simpa [List.replicate_succ, Memory.ofListFrom] using ih (k + 1)

theorem Memory.read_of_wfFrom_lt {size lo j : Nat} {m : Memory} (h : Memory.wfFrom size lo m = true) (hj : j < lo) :
    Memory.read m j = Memory.unlisted := by
  induction m generalizing lo with
  | nil => rfl
  | cons cell rest ih =>
    obtain ⟨a, b⟩ := cell
    simp only [Memory.wfFrom, Bool.and_eq_true, decide_eq_true_eq] at h
    simpa [Memory.read, show a ≠ j by omega] using ih h.2 (by omega)

end Sys2Proof.Machine
end

