-- ==== Sys2Proof/Laws/Router.lean ====
section
/-! SUPPORT. What each router transaction can do: the address decode, reads, writes, and the form they keep. -/

namespace Sys2Proof.Machine

/-- An address decodes to the unmapped hole exactly when it lies in it (R51, R54). -/
theorem decodeAddr_unmapped (b : Bool) (a : Word) : decodeAddr b a = .unmapped ↔ InHole a := by
  unfold decodeAddr InHole
  have := a.isLt
  dsimp only
  split_ifs <;> simp <;> omega

/-- The offset of a decoded address lies in its store. -/
theorem decodeAddr_offset {b : Bool} {a : Word} {id : StoreId} {off : Nat} (h : decodeAddr b a = .store id off) :
    off < id.size := by
  have := a.isLt
  unfold decodeAddr at h
  dsimp only at h
  split_ifs at h <;> cases h <;>
    simp [StoreId.size, Config.bootSize, Config.romWindowSize, Config.ramSize, Config.oamSize, Config.pageHalfSize] <;>
    omega

/-- A write may change a store exactly when the address is at 0x8000 or above (R51). -/
theorem decodeAddr_writable {b : Bool} {a : Word} {id : StoreId} {off : Nat} (h : decodeAddr b a = .store id off) :
    id.writable = true ↔ 0x8000 ≤ a.toNat := by
  unfold decodeAddr at h
  dsimp only at h
  split_ifs at h <;> cases h <;> simp [StoreId.writable] <;> omega

/-- `boot_active` changes the decode of 0x0000-0x00FF only (R52, R55). -/
theorem decodeAddr_high {b b' : Bool} {a : Word} (h : 0x0100 ≤ a.toNat) : decodeAddr b a = decodeAddr b' a := by
  unfold decodeAddr
  simp [show ¬ a.toNat < 0x0100 by omega]

/-- A byte of a writable store after a write of one byte of a writable store. -/
theorem Router.byteAt_poke (r : Router) {id : StoreId} (hid : id.writable = true) (off : Nat) (v : Byte) (jd : StoreId)
    (j : Nat) :
    (r.poke id off v).byteAt jd j = if jd = id ∧ j = off then v else r.byteAt jd j := by
  cases id <;> cases hid <;> cases jd <;> simp [Router.poke, Router.byteAt, Memory.read_write]

theorem Router.poke_bootActive (r : Router) (id : StoreId) (off : Nat) (v : Byte) :
    (r.poke id off v).bootActive = r.bootActive := by
  cases id <;> rfl

/-- What `read` can answer (R58). -/
theorem Router.read_cases (r : Router) (a : Word) :
    (∃ id off, decodeAddr r.bootActive a = .store id off ∧ r.read a = .ok (r.byteAt id off)) ∨
      (InHole a ∧ r.read a = .error (.unmappedAccess a .read)) := by
  unfold Router.read
  cases h : decodeAddr r.bootActive a with
  | store id off => exact .inl ⟨id, off, rfl, rfl⟩
  | unmapped => exact .inr ⟨(decodeAddr_unmapped _ _).1 h, rfl⟩

/-- A read fails only in the hole (R54, R58). -/
theorem Router.read_error {r : Router} {a : Word} {f : Fault} (h : r.read a = .error f) :
    InHole a ∧ f = .unmappedAccess a .read := by
  rcases Router.read_cases r a with ⟨id, off, -, h'⟩ | ⟨hole, h'⟩ <;> rw [h'] at h <;> cases h
  exact ⟨hole, rfl⟩

/-- What `write` can do when it succeeds (R59). -/
theorem Router.write_ok {r t : Router} {a : Word} {v : Byte} (h : r.write a v = .ok t) :
    ∃ id off, decodeAddr r.bootActive a = .store id off ∧ id.writable = true ∧ t = r.poke id off v := by
  unfold Router.write at h
  cases hd : decodeAddr r.bootActive a with
  | unmapped => simp [hd] at h
  | store id off =>
    cases hw : id.writable with
    | false => simp [hd, hw] at h
    | true =>
      simp only [hd, hw, if_true, Except.ok.injEq] at h
      exact ⟨id, off, rfl, hw, h.symm⟩

theorem Router.write_bootActive {r t : Router} {a : Word} {v : Byte} (h : r.write a v = .ok t) :
    t.bootActive = r.bootActive := by
  obtain ⟨id, off, -, -, rfl⟩ := Router.write_ok h
  exact Router.poke_bootActive r id off v

/-- What `read16` can fail with: the first of its two reads that fails (R60). -/
theorem Router.read16_error {r : Router} {a : Word} {f : Fault} (h : r.read16 a = .error f) :
    r.read a = .error f ∨ ((∃ hi, r.read a = .ok hi) ∧ r.read (a + 1#16) = .error f) := by
  unfold Router.read16 at h
  cases h₁ : r.read a with
  | error g => simp [h₁] at h; exact .inl (by rw [h])
  | ok hi =>
    cases h₂ : r.read (a + 1#16) with
    | error g => simp [h₁, h₂] at h; exact .inr ⟨⟨hi, rfl⟩, by rw [h]⟩
    | ok lo => simp [h₁, h₂] at h

theorem Router.read16_ok {r : Router} {a : Word} {hi lo : Byte} (h₁ : r.read a = .ok hi) (h₂ : r.read (a + 1#16) = .ok lo) :
    r.read16 a = .ok (joinBytes hi lo) := by
  simp [Router.read16, h₁, h₂]

/-- Changing one byte of any store, the cartridge included, keeps the canonical form. -/
theorem Router.poke_wf {r : Router} {id : StoreId} {off : Nat} (v : Byte) (h : r.wf = true) (hoff : off < id.size) :
    (r.poke id off v).wf = true := by
  have cart (w : RomWindow) (k : Nat) (hl : Config.minImageLength ≤ r.cart.length)
      (hb : Memory.wf r.cart.length r.cart.bytes = true) :
      Config.minImageLength ≤ (r.cart.poke w k v).length ∧
        Memory.wf (r.cart.poke w k v).length (r.cart.poke w k v).bytes = true := by
    refine ⟨Nat.le_trans hl (Nat.le_max_left _ _), ?_⟩
    exact Memory.write_wf v (Memory.wfFrom_size (Nat.le_max_left _ _) hb) (by simp [Cartridge.poke])
  cases id <;> simp only [Router.wf, Bool.and_eq_true, decide_eq_true_eq] at h ⊢ <;>
    simp only [Router.poke, h, and_self, true_and, and_true] <;>
    first
      | exact Memory.write_wf v (by simp [h]) hoff
      | exact cart _ off h.1.1.1.1.1.1.1.2 h.1.1.1.1.1.1.2

theorem Router.write_wf {r t : Router} {a : Word} {v : Byte} (h : r.wf = true) (hw : r.write a v = .ok t) :
    t.wf = true := by
  obtain ⟨id, off, hd, -, rfl⟩ := Router.write_ok hw
  exact Router.poke_wf v h (decodeAddr_offset hd)

theorem Router.install_wf {r : Router} {image : List Byte} (h : r.wf = true)
    (hl : Config.minImageLength ≤ image.length) : (r.install image).wf = true := by
  simp only [Router.wf, Bool.and_eq_true, decide_eq_true_eq] at h ⊢
  simp only [Router.install, Cartridge.ofImage, h, hl, Memory.ofList_wf (Nat.le_refl image.length), and_self]

theorem Router.place_wf {r : Router} (h : r.wf = true) (a : Word) (bytes : List Byte) :
    (r.place a bytes).wf = true := by
  induction bytes generalizing r a with
  | nil => exact h
  | cons b rest ih =>
    cases hd : decodeAddr r.bootActive a with
    | store id off => simpa [Router.place, hd] using ih (Router.poke_wf b h (decodeAddr_offset hd)) (a + 1#16)
    | unmapped => simpa [Router.place, hd] using ih h (a + 1#16)

theorem reset_stores_wf : State.reset.router.wf = true := by decide

/-! ## The rows of the address map, as far as the laws below the map need them -/

theorem decodeAddr_low {b : Bool} {a : Word} (h : a.toNat < 0x0100) :
    decodeAddr b a = .store (if b then .boot else .rom0) a.toNat := by
  simp [decodeAddr, h]

theorem decodeAddr_rom0 {b : Bool} {a : Word} (h : 0x0100 ≤ a.toNat) (h' : a.toNat < 0x4000) :
    decodeAddr b a = .store .rom0 a.toNat := by
  simp [decodeAddr, h', show ¬ a.toNat < 0x0100 by omega]

theorem decodeAddr_romx {b : Bool} {a : Word} (h : 0x4000 ≤ a.toNat) (h' : a.toNat < 0x8000) :
    decodeAddr b a = .store .romx (a.toNat - 0x4000) := by
  simp [decodeAddr, h', show ¬ a.toNat < 0x0100 by omega, show ¬ a.toNat < 0x4000 by omega]

theorem decodeAddr_wram {b : Bool} {a : Word} (h : 0xC000 ≤ a.toNat) (h' : a.toNat ≤ 0xFDFF) :
    decodeAddr b a = .store .wram (a.toNat % 8192) := by
  unfold decodeAddr
  dsimp only
  repeat (first | rw [if_neg (by omega)] | rw [if_pos (by omega)])

theorem decodeAddr_mapped {b : Bool} {a : Word} (h : ¬ InHole a) : ∃ id off, decodeAddr b a = .store id off := by
  cases hd : decodeAddr b a with
  | unmapped => exact absurd ((decodeAddr_unmapped b a).1 hd) h
  | store id off => exact ⟨id, off, rfl⟩

theorem Router.read_hole {r : Router} {a : Word} (h : InHole a) : r.read a = .error (.unmappedAccess a .read) := by
  simp only [Router.read, (decodeAddr_unmapped _ _).2 h]

theorem Router.write_hole {r : Router} {a : Word} {v : Byte} (h : InHole a) :
    r.write a v = .error (.unmappedAccess a .write) := by
  simp only [Router.write, (decodeAddr_unmapped _ _).2 h]

theorem Router.poke_rom {r : Router} {id : StoreId} {off : Nat} {v : Byte} (h : id.writable = true) :
    (r.poke id off v).boot = r.boot ∧ (r.poke id off v).cart = r.cart := by
  cases id <;> cases h <;> exact ⟨rfl, rfl⟩

/-- An installed image shows through each window what R70 says. -/
theorem Cartridge.byteAt_ofImage (image : List Byte) (w : RomWindow) (off : Nat) :
    (Cartridge.ofImage image).byteAt w off = imageByte image w off := by
  simp only [Cartridge.byteAt, Cartridge.ofImage, imageByte, Memory.read_ofList]
  split
  · rename_i h
    simp [List.getD, h]
  · rename_i h
    simp [List.getElem?_eq_none (Nat.le_of_not_lt h)]

end Sys2Proof.Machine
end

