-- ==== Sys2Proof/Laws/State.lean ====
section
/-! SUPPORT. One lemma per field per update of the state: what each update writes and what it leaves. -/

namespace Sys2Proof.Machine

@[simp] theorem State.writeReg_regs (s : State) (r : Reg) (v : Byte) : (s.writeReg r v).regs = s.regs.set r v := rfl
@[simp] theorem State.writeReg_pc (s : State) (r : Reg) (v : Byte) : (s.writeReg r v).pc = s.pc := rfl
@[simp] theorem State.writeReg_sp (s : State) (r : Reg) (v : Byte) : (s.writeReg r v).sp = s.sp := rfl
@[simp] theorem State.writeReg_lastM (s : State) (r : Reg) (v : Byte) : (s.writeReg r v).lastM = s.lastM := rfl
@[simp] theorem State.writeReg_lastT (s : State) (r : Reg) (v : Byte) : (s.writeReg r v).lastT = s.lastT := rfl
@[simp] theorem State.writeReg_run (s : State) (r : Reg) (v : Byte) : (s.writeReg r v).run = s.run := rfl
@[simp] theorem State.writeReg_router (s : State) (r : Reg) (v : Byte) : (s.writeReg r v).router = s.router := rfl
@[simp] theorem State.writeReg_totalM (s : State) (r : Reg) (v : Byte) : (s.writeReg r v).totalM = s.totalM := rfl
@[simp] theorem State.writeReg_totalT (s : State) (r : Reg) (v : Byte) : (s.writeReg r v).totalT = s.totalT := rfl
@[simp] theorem State.writeReg_lifecycle (s : State) (r : Reg) (v : Byte) : (s.writeReg r v).lifecycle = s.lifecycle := rfl

@[simp] theorem State.takeFault_regs (s : State) (f : Fault) : (s.takeFault f).regs = s.regs := rfl
@[simp] theorem State.takeFault_pc (s : State) (f : Fault) : (s.takeFault f).pc = s.pc := rfl
@[simp] theorem State.takeFault_sp (s : State) (f : Fault) : (s.takeFault f).sp = s.sp := rfl
@[simp] theorem State.takeFault_lastM (s : State) (f : Fault) : (s.takeFault f).lastM = s.lastM := rfl
@[simp] theorem State.takeFault_lastT (s : State) (f : Fault) : (s.takeFault f).lastT = s.lastT := rfl
@[simp] theorem State.takeFault_run (s : State) (f : Fault) : (s.takeFault f).run = .halted f := rfl
@[simp] theorem State.takeFault_router (s : State) (f : Fault) : (s.takeFault f).router = s.router := rfl
@[simp] theorem State.takeFault_totalM (s : State) (f : Fault) : (s.takeFault f).totalM = s.totalM := rfl
@[simp] theorem State.takeFault_totalT (s : State) (f : Fault) : (s.takeFault f).totalT = s.totalT := rfl
@[simp] theorem State.takeFault_lifecycle (s : State) (f : Fault) : (s.takeFault f).lifecycle = s.lifecycle := rfl

@[simp] theorem State.retire_regs (s : State) (e : Entry) : (s.retire e).regs = s.regs := rfl
@[simp] theorem State.retire_pc (s : State) (e : Entry) : (s.retire e).pc = s.pc + BitVec.ofNat 16 e.length := rfl
@[simp] theorem State.retire_sp (s : State) (e : Entry) : (s.retire e).sp = s.sp := rfl
@[simp] theorem State.retire_lastM (s : State) (e : Entry) : (s.retire e).lastM = e.cost.machine := rfl
@[simp] theorem State.retire_lastT (s : State) (e : Entry) : (s.retire e).lastT = e.cost.clock := rfl
@[simp] theorem State.retire_run (s : State) (e : Entry) : (s.retire e).run = s.run := rfl
@[simp] theorem State.retire_router (s : State) (e : Entry) : (s.retire e).router = s.router := rfl
@[simp] theorem State.retire_totalM (s : State) (e : Entry) : (s.retire e).totalM = s.totalM := rfl
@[simp] theorem State.retire_totalT (s : State) (e : Entry) : (s.retire e).totalT = s.totalT := rfl
@[simp] theorem State.retire_lifecycle (s : State) (e : Entry) : (s.retire e).lifecycle = s.lifecycle := rfl

@[simp] theorem State.writePair_regs (s : State) (p : Pair) (v : Word) : (s.writePair p v).regs = (s.regs.set p.hi (hiByte v)).set p.lo (loByte v) := rfl
@[simp] theorem State.writePair_pc (s : State) (p : Pair) (v : Word) : (s.writePair p v).pc = s.pc := rfl
@[simp] theorem State.writePair_sp (s : State) (p : Pair) (v : Word) : (s.writePair p v).sp = s.sp := rfl
@[simp] theorem State.writePair_lastM (s : State) (p : Pair) (v : Word) : (s.writePair p v).lastM = s.lastM := rfl
@[simp] theorem State.writePair_lastT (s : State) (p : Pair) (v : Word) : (s.writePair p v).lastT = s.lastT := rfl
@[simp] theorem State.writePair_run (s : State) (p : Pair) (v : Word) : (s.writePair p v).run = s.run := rfl
@[simp] theorem State.writePair_router (s : State) (p : Pair) (v : Word) : (s.writePair p v).router = s.router := rfl
@[simp] theorem State.writePair_totalM (s : State) (p : Pair) (v : Word) : (s.writePair p v).totalM = s.totalM := rfl
@[simp] theorem State.writePair_totalT (s : State) (p : Pair) (v : Word) : (s.writePair p v).totalT = s.totalT := rfl
@[simp] theorem State.writePair_lifecycle (s : State) (p : Pair) (v : Word) : (s.writePair p v).lifecycle = s.lifecycle := rfl

@[simp] theorem State.withFetchWord_regs (s : State) (n w : Nat) : (s.withFetchWord n w).regs = s.regs := rfl
@[simp] theorem State.withFetchWord_pc (s : State) (n w : Nat) : (s.withFetchWord n w).pc = s.pc := rfl
@[simp] theorem State.withFetchWord_sp (s : State) (n w : Nat) : (s.withFetchWord n w).sp = s.sp := rfl
@[simp] theorem State.withFetchWord_lastM (s : State) (n w : Nat) : (s.withFetchWord n w).lastM = s.lastM := rfl
@[simp] theorem State.withFetchWord_lastT (s : State) (n w : Nat) : (s.withFetchWord n w).lastT = s.lastT := rfl
@[simp] theorem State.withFetchWord_run (s : State) (n w : Nat) : (s.withFetchWord n w).run = .running := rfl
@[simp] theorem State.withFetchWord_router (s : State) (n w : Nat) : (s.withFetchWord n w).router = s.router.place s.pc (tableInstrBytes n w) := rfl
@[simp] theorem State.withFetchWord_totalM (s : State) (n w : Nat) : (s.withFetchWord n w).totalM = s.totalM := rfl
@[simp] theorem State.withFetchWord_totalT (s : State) (n w : Nat) : (s.withFetchWord n w).totalT = s.totalT := rfl
@[simp] theorem State.withFetchWord_lifecycle (s : State) (n w : Nat) : (s.withFetchWord n w).lifecycle = s.lifecycle := rfl

@[simp] theorem State.addTotals_regs (s : State) : s.addTotals.regs = s.regs := by
  unfold State.addTotals; split <;> rfl
@[simp] theorem State.addTotals_pc (s : State) : s.addTotals.pc = s.pc := by
  unfold State.addTotals; split <;> rfl
@[simp] theorem State.addTotals_sp (s : State) : s.addTotals.sp = s.sp := by
  unfold State.addTotals; split <;> rfl
@[simp] theorem State.addTotals_lastM (s : State) : s.addTotals.lastM = s.lastM := by
  unfold State.addTotals; split <;> rfl
@[simp] theorem State.addTotals_lastT (s : State) : s.addTotals.lastT = s.lastT := by
  unfold State.addTotals; split <;> rfl
@[simp] theorem State.addTotals_run (s : State) : s.addTotals.run = s.run := by
  unfold State.addTotals; split <;> rfl
@[simp] theorem State.addTotals_router (s : State) : s.addTotals.router = s.router := by
  unfold State.addTotals; split <;> rfl
@[simp] theorem State.addTotals_lifecycle (s : State) : s.addTotals.lifecycle = s.lifecycle := by
  unfold State.addTotals; split <;> rfl

/-- A register reads what was last written to it, F but for its low nibble (R25); every other register is kept. -/
theorem Regs.get_set (g : Regs) (r q : Reg) (v : Byte) :
    (g.set r v).get q = if q = r then (if r = .F then maskF v else v) else g.get q := by
  cases r <;> cases q <;> simp [Regs.set, Regs.get, maskF, BitVec.and_assoc]

theorem State.readReg_writeReg (s : State) (r q : Reg) (v : Byte) :
    (s.writeReg r v).readReg q = if q = r then (if r = .F then maskF v else v) else s.readReg q :=
  Regs.get_set s.regs r q v

end Sys2Proof.Machine
end

