-- ==== Sys2Proof/Laws/Step.lean ====
section
/-! SUPPORT. What a step and its phases can do, once for each. -/

namespace Sys2Proof.Machine

theorem State.execute_ok {s t : State} {e : Entry} {effect : State → Except Fault State} (h : effect s = .ok t) :
    s.execute e effect = .next (t.retire e) := by
  simp [State.execute, h]

theorem State.execute_error {s : State} {e : Entry} {effect : State → Except Fault State} {f : Fault}
    (h : effect s = .error f) : s.execute e effect = .next (s.takeFault f) := by
  simp [State.execute, h]

theorem execNop_eq (s : State) : execNop s = .next (s.retire nopEntry) := rfl

theorem execLdBcD16_eq (d16 : Word) (s : State) :
    execLdBcD16 d16 s = .next ((s.writePair .BC d16).retire ldBcD16Entry) := rfl

theorem execUnimplemented_eq (op : Byte) (s : State) :
    execUnimplemented op s = .next (s.takeFault (.unimplementedOpcode op s.pc)) := rfl

/-- What the fetch gives once the opcode byte is read: each opcode reads its own operand bytes and no more. -/
theorem State.fetchInstr_of_opcode {s : State} {op : Byte} (h : s.read s.pc = .ok op) :
    (op = 0x00#8 ∧ s.fetchInstr = .ok .nop) ∨
      (op = 0x01#8 ∧ ∃ d16, s.read16 (s.pc + 1#16) = .ok d16 ∧ s.fetchInstr = .ok (.ldBcD16 d16)) ∨
      (op = 0x01#8 ∧ ∃ f, s.read16 (s.pc + 1#16) = .error f ∧ s.fetchInstr = .error f) ∨
      (2 ≤ op.toNat ∧ s.fetchInstr = .ok (.unimplemented op)) := by
  rcases opcode_cases op with rfl | rfl | hop
  · exact .inl ⟨rfl, by simp [State.fetchInstr, h, operandCount_zero, instrOf_zero]⟩
  · cases hd : s.read16 (s.pc + 1#16) with
    | ok d16 =>
      exact .inr (.inl ⟨rfl, d16, rfl, by
        simp [State.fetchInstr, h, operandCount_one, State.immediate16, hd, instrOf_one]⟩)
    | error f =>
      exact .inr (.inr (.inl ⟨rfl, f, rfl, by
        simp [State.fetchInstr, h, operandCount_one, State.immediate16, hd]⟩))
  · exact .inr (.inr (.inr ⟨hop, by
      simp [State.fetchInstr, h, operandCount_unimplemented hop, instrOf_unimplemented hop]⟩))

theorem State.fetchInstr_of_fault {s : State} {f : Fault} (h : s.read s.pc = .error f) :
    s.fetchInstr = .error f := by
  simp [State.fetchInstr, h]

/-- Everything a step of a running session can do (R129). -/
theorem step_cases {s : State} (h : s.run = .running) :
    (∃ f, s.fetchInstr = .error f ∧ step s = .next (s.takeFault f)) ∨
      (s.fetchInstr = .ok .nop ∧ step s = .next (s.retire nopEntry)) ∨
      (∃ d16, s.fetchInstr = .ok (.ldBcD16 d16) ∧ step s = .next ((s.writePair .BC d16).retire ldBcD16Entry)) ∨
      (∃ op, s.fetchInstr = .ok (.unimplemented op) ∧
        step s = .next (s.takeFault (.unimplementedOpcode op s.pc))) := by
  cases hf : s.fetchInstr with
  | error f => exact .inl ⟨f, rfl, by simp [step, h, hf]⟩
  | ok i =>
    cases i with
    | nop => exact .inr (.inl ⟨rfl, by simp [step, h, hf, exec, execNop_eq]⟩)
    | ldBcD16 d16 => exact .inr (.inr (.inl ⟨d16, rfl, by simp [step, h, hf, exec, execLdBcD16_eq]⟩))
    | unimplemented op =>
      exact .inr (.inr (.inr ⟨op, rfl, by simp [step, h, hf, exec, execUnimplemented_eq]⟩))

/-- A halted session's step answers its fault (R166). -/
theorem step_halted {s : State} {f : Fault} (h : s.run = .halted f) : step s = .fault f := by
  simp [step, h]

/-- A step that answers a next state began in a running session. -/
theorem step_next_running {s t : State} (h : step s = .next t) : s.run = .running := by
  cases hr : s.run with
  | running => rfl
  | halted f => simp [step_halted hr] at h

/-- A fetch fails only with a read of the hole at `pc`, `pc + 1` or `pc + 2` (R161, R167). -/
theorem State.fetchInstr_error {s : State} {f : Fault} (h : s.fetchInstr = .error f) :
    ∃ a, f = .unmappedAccess a .read ∧ InHole a ∧ (a = s.pc ∨ a = s.pc + 1#16 ∨ a = s.pc + 1#16 + 1#16) := by
  cases hr : s.read s.pc with
  | error g =>
    obtain ⟨hole, hg⟩ := Router.read_error hr
    rw [State.fetchInstr_of_fault hr] at h
    cases h
    exact ⟨s.pc, hg, hole, .inl rfl⟩
  | ok op =>
    rcases State.fetchInstr_of_opcode hr with ⟨-, h'⟩ | ⟨-, d, -, h'⟩ | ⟨-, g, hg, h'⟩ | ⟨-, h'⟩ <;> rw [h'] at h <;>
      cases h
    rcases Router.read16_error hg with h₁ | ⟨-, h₂⟩
    · obtain ⟨hole, hf⟩ := Router.read_error h₁
      exact ⟨_, hf, hole, .inr (.inl rfl)⟩
    · obtain ⟨hole, hf⟩ := Router.read_error h₂
      exact ⟨_, hf, hole, .inr (.inr rfl)⟩

/-- The unimplemented class is fetched for the opcode bytes 0x02 to 0xFF only. -/
theorem State.fetchInstr_unimplemented {s : State} {op : Byte} (h : s.fetchInstr = .ok (.unimplemented op)) :
    s.read s.pc = .ok op ∧ 2 ≤ op.toNat := by
  cases hr : s.read s.pc with
  | error g => rw [State.fetchInstr_of_fault hr] at h; cases h
  | ok op' =>
    rcases State.fetchInstr_of_opcode hr with ⟨-, h'⟩ | ⟨-, d, -, h'⟩ | ⟨-, g, hg, h'⟩ | ⟨hop, h'⟩ <;> rw [h'] at h <;>
      cases h
    exact ⟨rfl, hop⟩

theorem State.fetchInstr_nop {s : State} (h : s.fetchInstr = .ok .nop) : s.read s.pc = .ok 0x00#8 := by
  cases hr : s.read s.pc with
  | error g => rw [State.fetchInstr_of_fault hr] at h; cases h
  | ok op' =>
    rcases State.fetchInstr_of_opcode hr with ⟨h₀, h'⟩ | ⟨-, d, -, h'⟩ | ⟨-, g, hg, h'⟩ | ⟨hop, h'⟩ <;> rw [h'] at h <;>
      cases h
    rw [h₀]

theorem State.fetchInstr_ldBcD16 {s : State} {d16 : Word} (h : s.fetchInstr = .ok (.ldBcD16 d16)) :
    s.read s.pc = .ok 0x01#8 ∧ s.read16 (s.pc + 1#16) = .ok d16 := by
  cases hr : s.read s.pc with
  | error g => rw [State.fetchInstr_of_fault hr] at h; cases h
  | ok op' =>
    rcases State.fetchInstr_of_opcode hr with ⟨h₀, h'⟩ | ⟨h₀, d', hd, h'⟩ | ⟨-, g, hg, h'⟩ | ⟨hop, h'⟩ <;>
      rw [h'] at h <;> cases h
    exact ⟨by rw [h₀], hd⟩

/-- The step inverted: how a next state comes about. -/
theorem step_next_cases {s t : State} (h : step s = .next t) :
    s.run = .running ∧
      ((∃ f, s.fetchInstr = .error f ∧ t = s.takeFault f) ∨
        (s.read s.pc = .ok 0x00#8 ∧ t = s.retire nopEntry) ∨
        (∃ d16, s.read s.pc = .ok 0x01#8 ∧ s.read16 (s.pc + 1#16) = .ok d16 ∧
          t = (s.writePair .BC d16).retire ldBcD16Entry) ∨
        ∃ op, s.read s.pc = .ok op ∧ 2 ≤ op.toNat ∧ t = s.takeFault (.unimplementedOpcode op s.pc)) := by
  have hr := step_next_running h
  refine ⟨hr, ?_⟩
  rcases step_cases hr with ⟨f, hf, h'⟩ | ⟨hf, h'⟩ | ⟨d, hf, h'⟩ | ⟨op, hf, h'⟩ <;> rw [h] at h' <;> injection h' with h'
  · exact .inl ⟨f, hf, h'⟩
  · exact .inr (.inl ⟨State.fetchInstr_nop hf, h'⟩)
  · exact .inr (.inr (.inl ⟨d, (State.fetchInstr_ldBcD16 hf).1, (State.fetchInstr_ldBcD16 hf).2, h'⟩))
  · exact .inr (.inr (.inr ⟨op, (State.fetchInstr_unimplemented hf).1, (State.fetchInstr_unimplemented hf).2, h'⟩))

/-- A step leaves the router as it was: no instruction of this edition writes memory (R50). -/
theorem step_router {s t : State} (h : step s = .next t) : t.router = s.router := by
  obtain ⟨-, ⟨f, -, rfl⟩ | ⟨-, rfl⟩ | ⟨d, -, -, rfl⟩ | ⟨op, -, -, rfl⟩⟩ := step_next_cases h <;> rfl

end Sys2Proof.Machine
end

