-- ==== Sys2Proof/Laws/Harness.lean ====
section
/-! SUPPORT. What each host transaction can do, and the induction over a session's transactions. -/

namespace Sys2Proof.Machine

/-- What a `run_cycle` does to a session. -/
theorem afterEvent_runCycle (s : State) :
    (∃ f, s.run = .halted f ∧ afterEvent s .runCycle = s) ∨
      (s.run = .running ∧ ∃ t, step s = .next t ∧
        afterEvent s .runCycle = { t.addTotals with lifecycle := .running }) := by
  cases hr : s.run with
  | halted f => exact .inl ⟨f, rfl, by simp [afterEvent, transact, runCycle, step_halted hr]⟩
  | running =>
    refine .inr ⟨rfl, ?_⟩
    rcases step_cases hr with ⟨f, -, h⟩ | ⟨-, h⟩ | ⟨d, -, h⟩ | ⟨op, -, h⟩ <;>
      exact ⟨_, h, by simp [afterEvent, transact, runCycle, h]⟩

/-- What `set_boot_active` does to a session. -/
theorem afterEvent_setBootActive (s : State) (b : Bool) :
    afterEvent s (.setBootActive b) = s ∨
      (s.run = .running ∧ b = false ∧
        afterEvent s (.setBootActive b) = { s with router := { s.router with bootActive := false } }) := by
  cases hr : s.run with
  | halted f => exact .inl (by simp [afterEvent, transact, setBootActive, hr])
  | running =>
    cases b with
    | true => exact .inl (by rcases s with ⟨⟩; simp_all [afterEvent, transact, setBootActive, Router.setBootActive])
    | false => exact .inr ⟨rfl, rfl, by simp [afterEvent, transact, setBootActive, hr, Router.setBootActive]⟩

/-- What a reload does to a session. -/
theorem afterEvent_reload (s : State) (image : List Byte) :
    afterEvent s (.reload image) = s ∨
      (s.run = .running ∧ image.length < Config.minImageLength ∧
        afterEvent s (.reload image) = s.takeFault (.cartridgeTooSmall image.length)) ∨
      (s.run = .running ∧ Config.minImageLength ≤ image.length ∧
        afterEvent s (.reload image) = { s with router := s.router.install image }) := by
  cases hr : s.run with
  | halted f => exact .inl (by simp [afterEvent, transact, reload, hr])
  | running =>
    by_cases h : image.length < Config.minImageLength
    · exact .inr (.inl ⟨rfl, h, by simp [afterEvent, transact, reload, hr, h]⟩)
    · exact .inr (.inr ⟨rfl, Nat.le_of_not_lt h, by simp [afterEvent, transact, reload, hr, h]⟩)

/-- What every transaction keeps, every list of transactions keeps. -/
theorem runEvents_induction {P : State → Prop} (keeps : ∀ s e, P s → P (afterEvent s e)) (events : List HostEvent)
    (s : State) (h : P s) : P (runEvents events s) := by
  induction events generalizing s with
  | nil => exact h
  | cons e rest ih => exact ih _ (keeps _ _ h)

/-- A construction that succeeded had a long enough image and left these values. -/
theorem construct_ok {p : PowerOn} {s : State} (h : construct p = .ok s) :
    Config.minImageLength ≤ p.cartImage.length ∧
      s.regs = { a := 0, f := 0, b := 0, c := 0, d := 0, e := 0, h := 0, l := 0 } ∧ s.pc = 0 ∧ s.sp = 0 ∧
      s.lastM = 0 ∧ s.lastT = 0 ∧ s.run = .running ∧ s.totalM = 0 ∧ s.totalT = 0 ∧ s.lifecycle = .loaded ∧
      s.router.bootActive = true := by
  unfold construct at h
  split at h
  · cases h
  · rename_i hl
    cases h
    exact ⟨Nat.le_of_not_lt hl, rfl, rfl, rfl, rfl, rfl, rfl, rfl, rfl, rfl, rfl⟩

end Sys2Proof.Machine
end

