-- ==== Sys2Proof/Laws/PerInstr.lean ====
section
/-! SUPPORT. Laws of the instructions as syntax, one lemma per constructor. -/

namespace Sys2Proof.Laws.EncodeLength

/-- The encoding of a well-formed instruction is its opcode byte and as many bytes as that opcode announces
(R100, R106). -/
def Statement (i : Instr) : Prop :=
  WellFormed i → ∃ opcode operands, encode i = opcode :: operands ∧ operands.length = operandCount opcode

theorem nop : Statement .nop := fun _ => ⟨0x00#8, [], rfl, rfl⟩

theorem ldBcD16 (d16 : Word) : Statement (.ldBcD16 d16) :=
  fun _ => ⟨0x01#8, [hiByte d16, loByte d16], rfl, rfl⟩

theorem unimplemented (opcode : Byte) : Statement (.unimplemented opcode) :=
  fun h => ⟨opcode, [], rfl, (operandCount_unimplemented (by simpa [WellFormed, Instr.wellFormed] using h)).symm⟩

end Sys2Proof.Laws.EncodeLength
end

