-- ==== Sys2Proof/Tests/Slice0.lean ====
section
/-! SUPPORT. Tests of the model against the spec's encodings and vectors (spec/95_test_vectors.md), and a witness for
the hypotheses of every statement. -/

namespace Sys2Proof.Tests

open Sys2Proof.Machine

/-! ## Well-formedness -/

/-- 0x00 has a dispatch-table entry, so it is not of the unimplemented class (R104). -/
theorem test_unimplemented_0x00_is_ill_formed : (Instr.unimplemented 0x00#8).wellFormed = false := by decide

/-- 0x01 has a dispatch-table entry, so it is not of the unimplemented class (R104). -/
theorem test_unimplemented_0x01_is_ill_formed : (Instr.unimplemented 0x01#8).wellFormed = false := by decide

theorem test_unimplemented_bounds_are_well_formed :
    WellFormed (.unimplemented 0x02#8) ∧ WellFormed (.unimplemented 0xFF#8) := by decide

/-! ## Words written out from the encodings -/

/-- Table row NOP: 00000000. -/
theorem test_decode_nop : decode [0b00000000#8] = .ok (.nop, []) := by rfl

/-- Table row LD_BC_d16: 00000001 hhhhhhhh llllllll, `h` being bits 15:8 of the immediate (R101). -/
theorem test_decode_ldBcD16 :
    decode [0b00000001#8, 0b10000000#8, 0b00000001#8] = .ok (.ldBcD16 0b1000000000000001#16, []) := by rfl

/-- Vectors UO1, UO3 and UO2: the lowest value, 0xCB, which is no prefix, and the highest value. -/
theorem test_decode_unimplemented :
    decode [0x02#8] = .ok (.unimplemented 0x02#8, []) ∧
      decode [0xCB#8, 0x00#8] = .ok (.unimplemented 0xCB#8, [0x00#8]) ∧
      decode [0xFF#8] = .ok (.unimplemented 0xFF#8, []) := ⟨rfl, rfl, rfl⟩

/-- A list that ends before its instruction does is refused by name. -/
theorem test_decode_refusals :
    decode [] = .error .noOpcode ∧ decode [0x01#8, 0x34#8] = .error (.operandMissing 0x01#8) := ⟨rfl, rfl⟩

/-- R109: the assembly of LD BC,n is 0x01, n[15:8], n[7:0]. -/
theorem test_encode_ldBcD16 : encode (.ldBcD16 0x3412#16) = [0x01#8, 0x34#8, 0x12#8] := by rfl

/-- Opcode-table words: the first byte is bits 7:0. -/
theorem test_decodeTableWord :
    decodeTableWord 8 0x00 = some .nop ∧ decodeTableWord 24 0x123401 = some (.ldBcD16 0x3412#16) ∧
      decodeTableWord 8 0x01 = some (.ldBcD16 0x0000#16) ∧
      decodeTableWord 8 0x76 = some (.unimplemented 0x76#8) := by decide

/-! ## One step each -/

/-- The state after reset with `pc` moved and bytes placed at it. -/
def withBytes (pc : Word) (bytes : List Byte) : State :=
  { State.reset with pc := pc, router := State.reset.router.place pc bytes }

/-- What an outcome's next state satisfies. -/
def nextSat (o : Host.Outcome State Fault Refusal) (p : State → Bool) : Bool :=
  match o with
  | .next t => p t
  | .fault _ => false
  | .refused _ => false

/-- Vector NP6: NOP at 0xFFFF wraps to 0x0000 and costs (1, 4). -/
theorem test_nop_wraps :
    nextSat (step (withBytes 0xFFFF#16 [0x00#8])) (fun t => t.pc = 0x0000#16 && t.lastM = 1#8 && t.lastT = 4#8) = true :=
  by decide

/-- Vector NP5: NOP at 0xFE9F retires with `pc` in the hole. -/
theorem test_nop_before_the_hole :
    nextSat (step (withBytes 0xFE9F#16 [0x00#8])) (fun t => t.pc = 0xFEA0#16 && t.run = .running) = true := by decide

/-- Vector W6, LD1 under the spec's big-endian order: B = 0x34, C = 0x12, `pc` + 3, (3, 12). -/
theorem test_ldBcD16_is_big_endian :
    nextSat (step (withBytes 0x0000#16 [0x01#8, 0x34#8, 0x12#8])) (fun t => t.readReg .B = 0x34#8 &&
      t.readReg .C = 0x12#8 && t.pc = 0x0003#16 && t.lastM = 3#8 && t.lastT = 12#8) = true := by decide

/-- Vector LD10: at 0xFE9E the second operand byte is in the hole; nothing changes and the core halts. -/
theorem test_ldBcD16_operand_in_the_hole :
    nextSat (step (withBytes 0xFE9E#16 [0x01#8, 0x99#8])) (fun t => t.readPair .BC = 0x0000#16 && t.pc = 0xFE9E#16 &&
      t.run = .halted (.unmappedAccess 0xFEA0#16 .read)) = true := by decide

/-- Vector UO4: an unimplemented opcode just before the hole reads no operand. -/
theorem test_unimplemented_before_the_hole :
    nextSat (step (withBytes 0xFE9F#16 [0x76#8])) (fun t => t.pc = 0xFE9F#16 &&
      t.run = .halted (.unimplementedOpcode 0x76#8 0xFE9F#16)) = true := by decide

/-- Vector UO8: a halted core answers its fault again. -/
theorem test_halted_step :
    step { State.reset with run := .halted (.unimplementedOpcode 0x02#8 0x0000#16) } =
      .fault (.unimplementedOpcode 0x02#8 0x0000#16) := rfl

/-! ## The router and the host -/

/-- Vectors RT16, RT20, RT25: the mirror, the I/O region and the wrap of `read16` onto the boot firmware. -/
theorem test_router_reads :
    (withBytes 0xFDFF#16 [0xDE#8]).read 0xDDFF#16 = .ok 0xDE#8 ∧
      (withBytes 0xFF00#16 [0x33#8]).read 0xFF00#16 = .ok 0x33#8 ∧
      (withBytes 0xFFFF#16 [0xAB#8, 0xCD#8]).read16 0xFFFF#16 = .ok 0xABCD#16 := by decide

/-- Vectors RT9, RT26 and RT28: a ROM write, a `read16` into the hole, and a byte the image does not reach. -/
theorem test_router_corners :
    State.reset.router.write 0x4000#16 0x01#8 = .error (.readOnlyViolation 0x4000#16 0x01#8) ∧
      State.reset.read16 0xFE9F#16 = .error (.unmappedAccess 0xFEA0#16 .read) ∧
      State.reset.read 0x0150#16 = .ok (Config.absentRom .rom0 0x0150) := by
  refine ⟨rfl, rfl, ?_⟩
  simp [State.read, Router.read, decodeAddr, Router.byteAt, Cartridge.byteAt, State.reset, RomWindow.base,
    Config.minImageLength]

/-- Vectors HO3 and HO6: the totals of one `run_cycle`, and a rejected reload. -/
theorem test_host :
    nextSat (runCycle (withBytes 0x0001#16 [0x01#8, 0x34#8, 0x12#8])) (fun t => t.totalM = 3#64 && t.totalT = 12#64 &&
      t.lifecycle = .running) = true ∧
    nextSat (reload (List.replicate 100 0x00#8) State.reset) (fun t =>
      t = { State.reset with run := .halted (.cartridgeTooSmall 100) }) = true := by decide

/-- A word placed for the fetch is run as the first instruction after reset. -/
theorem test_withFetchWord :
    nextSat (step (State.reset.withFetchWord 24 0x123401)) (fun t => t.readPair .BC = 0x3412#16) = true ∧
      nextSat (step (State.reset.withFetchWord 8 0x76)) (fun t =>
        t.run = .halted (.unimplementedOpcode 0x76#8 0x0000#16)) = true := by decide

/-! ## Witnesses: states and operands that meet each statement's hypotheses, at the bounds of their ranges -/

theorem next_of_nextSat {o : Host.Outcome State Fault Refusal} {p : State → Prop} [DecidablePred p]
    (h : nextSat o (fun t => decide (p t)) = true) : ∃ t, o = .next t ∧ p t := by
  cases o with
  | next t => exact ⟨t, rfl, of_decide_eq_true h⟩
  | fault f => cases h
  | refused r => cases h

/-- Construction arguments with an image of `n` zero bytes. -/
def powerOn (n : Nat) : PowerOn := { PowerOn.blank with cartImage := List.replicate n 0x00#8 }

/-- A halted session. -/
def haltedState : State := State.reset.takeFault (.unmappedAccess 0xFEA0#16 .read)

/-- LD BC,d16 at 0x0000. -/
def loadState : State := withBytes 0x0000#16 [0x01#8, 0x34#8, 0x12#8]

/-- An unimplemented opcode at 0x0000. -/
def unimplementedState : State := withBytes 0x0000#16 [0x76#8]

/-- A session whose `pc` is in the hole. -/
def holeState (pc : Word) : State := { State.reset with pc := pc }

/-- A session with the overlay off. -/
def bankState (pc : Word) : State :=
  { State.reset with pc := pc, router := State.reset.router.setBootActive false }

theorem powerOn_length (n : Nat) : (powerOn n).cartImage.length = n := List.length_replicate

theorem powerOn_construct {n : Nat} (h : 0x0150 ≤ n) : ∃ s, construct (powerOn n) = .ok s := by
  unfold construct
  rw [if_neg (by rw [powerOn_length]; exact Nat.not_lt.2 h)]
  exact ⟨_, rfl⟩

theorem powerOn_reachable (events : List HostEvent) :
    ∃ s, construct (powerOn 0x0150) = .ok s ∧ Reachable (runEvents events s) := by
  obtain ⟨s, h⟩ := powerOn_construct (Nat.le_refl 0x0150)
  exact ⟨s, h, powerOn 0x0150, s, events, h, rfl⟩

theorem powerOn_writeAll (writes : List (Word × Byte)) (r : Router)
    (h : ∀ w ∈ writes, 0x8000 ≤ w.1.toNat ∧ ¬ InHole w.1) : ∃ r', r.writeAll writes = .ok r' := by
  induction writes generalizing r with
  | nil => exact ⟨r, rfl⟩
  | cons w rest ih =>
    obtain ⟨a, v⟩ := w
    obtain ⟨ha, hole⟩ := h (a, v) List.mem_cons_self
    obtain ⟨id, off, hd⟩ := decodeAddr_mapped (b := r.bootActive) hole
    obtain ⟨r', h'⟩ := ih (r.poke id off v) fun w hw => h w (List.mem_cons_of_mem _ hw)
    exact ⟨r', by simp [Router.writeAll, Router.write, hd, (decodeAddr_writable hd).2 ha, h']⟩

theorem witness_ConstructionGivesResetValues :
    (powerOn 0x014F).cartImage.length < 0x0150 ∧ 0x0150 ≤ (powerOn 0x0150).cartImage.length := by
  rw [powerOn_length, powerOn_length]; decide

theorem witness_FlagRegisterLowNibbleIsHardwired : ∃ s, Reachable s :=
  let ⟨_, _, h⟩ := powerOn_reachable [.runCycle]
  ⟨_, h⟩

theorem witness_PairIsAViewOfItsTwoRegisters :
    Pair.BC ≠ .AF ∧ Reg.A ≠ Pair.hi .BC ∧ Reg.A ≠ Pair.lo .BC := by decide

theorem witness_FlagsLieInTheHighNibbleOfF : Flag.zero ≠ .carry ∧ 3 < 4 ∧ Reg.A ≠ .F := by decide

theorem witness_OnlyLoadWritesRegistersAndOnlyBC :
    (∃ t, exec .nop State.reset = .next t) ∧ (∃ t, exec (.ldBcD16 0x3412#16) State.reset = .next t) ∧
      (∃ s, Reachable s) ∧ Reg.A ≠ .B ∧ Reg.A ≠ .C :=
  ⟨⟨_, rfl⟩, ⟨_, rfl⟩, witness_FlagRegisterLowNibbleIsHardwired, by decide, by decide⟩

theorem witness_NoInstructionTouchesAFlag :
    (∃ t, exec (.ldBcD16 0x3412#16) State.reset = .next t) ∧ ∃ s, Reachable s :=
  ⟨⟨_, rfl⟩, witness_FlagRegisterLowNibbleIsHardwired⟩

theorem witness_StackPointerIsUntouched : (∃ t, exec .nop State.reset = .next t) ∧ ∃ s, Reachable s :=
  ⟨⟨_, rfl⟩, witness_FlagRegisterLowNibbleIsHardwired⟩

theorem witness_PcAdvancesByTheEncodedLength :
    (∃ t, step (withBytes 0xFFFF#16 [0x00#8]) = .next t ∧ t.run = .running) ∧
      (∃ t, step (withBytes 0xFFFD#16 [0x01#8, 0x34#8, 0x12#8]) = .next t ∧ t.run = .running) ∧
      ∃ t, step unimplementedState = .next t ∧ t.run = .halted (.unimplementedOpcode 0x76#8 0x0000#16) :=
  ⟨next_of_nextSat (by decide), next_of_nextSat (by decide), next_of_nextSat (by decide)⟩

theorem witness_CountersHoldTheLastCost :
    (∃ t, step State.reset = .next t ∧ t.run = .running) ∧ (∃ t, step loadState = .next t ∧ t.run = .running) ∧
      ∃ t, step unimplementedState = .next t ∧ t.run = .halted (.unimplementedOpcode 0x76#8 0x0000#16) :=
  ⟨next_of_nextSat (by decide), next_of_nextSat (by decide), next_of_nextSat (by decide)⟩

theorem witness_HaltIsFinal : haltedState.run = .halted (.unmappedAccess 0xFEA0#16 .read) := rfl

theorem witness_BootActiveIsOneWay :
    State.reset.run = .running ∧ (∃ t, exec .nop State.reset = .next t) ∧
      (∃ r, State.reset.router.write 0xC000#16 0x01#8 = .ok r) ∧ (bankState 0x0000#16).router.bootActive = false :=
  ⟨rfl, ⟨_, rfl⟩, ⟨_, rfl⟩, rfl⟩

theorem witness_ReloadChangesOnlyTheRomWindows :
    State.reset.run = .running ∧ 0x0150 ≤ (List.replicate 0x0150 0x01#8).length ∧
      (List.replicate 0x014F 0x01#8).length < 0x0150 := by
  rw [List.length_replicate, List.length_replicate]; decide

/-- Both ends of every row of the table of R51. -/
theorem witness_AddressMapIsTheTable :
    decodeAddr true 0x0000#16 = .store .boot 0 ∧ decodeAddr true 0x00FF#16 = .store .boot 0xFF ∧
      decodeAddr false 0x0000#16 = .store .rom0 0 ∧ decodeAddr false 0x00FF#16 = .store .rom0 0xFF ∧
      decodeAddr true 0x0100#16 = .store .rom0 0x100 ∧ decodeAddr true 0x3FFF#16 = .store .rom0 0x3FFF ∧
      decodeAddr true 0x4000#16 = .store .romx 0 ∧ decodeAddr true 0x7FFF#16 = .store .romx 0x3FFF ∧
      decodeAddr true 0x8000#16 = .store .vram 0 ∧ decodeAddr true 0x9FFF#16 = .store .vram 0x1FFF ∧
      decodeAddr true 0xA000#16 = .store .eram 0 ∧ decodeAddr true 0xBFFF#16 = .store .eram 0x1FFF ∧
      decodeAddr true 0xC000#16 = .store .wram 0 ∧ decodeAddr true 0xDFFF#16 = .store .wram 0x1FFF ∧
      decodeAddr true 0xE000#16 = .store .wram 0 ∧ decodeAddr true 0xFDFF#16 = .store .wram 0x1DFF ∧
      decodeAddr true 0xFE00#16 = .store .oam 0 ∧ decodeAddr true 0xFE9F#16 = .store .oam 0x9F ∧
      decodeAddr true 0xFEA0#16 = .unmapped ∧ decodeAddr true 0xFEFF#16 = .unmapped ∧
      decodeAddr true 0xFF00#16 = .store .io 0 ∧ decodeAddr true 0xFF7F#16 = .store .io 0x7F ∧
      decodeAddr true 0xFF80#16 = .store .hram 0 ∧ decodeAddr true 0xFFFF#16 = .store .hram 0x7F := by decide

/-- An image that differs from the installed one in bank 0's first byte only. -/
def hiddenCart : Cartridge := State.reset.router.cart.poke .rom0 0 0x76#8

theorem hiddenCart_agrees (w : RomWindow) (off : Nat) (h : w = .romx ∨ 0x0100 ≤ off) :
    hiddenCart.byteAt w off = State.reset.router.cart.byteAt w off := by
  have hk : RomWindow.base w + off ≠ 0 := by
    rcases h with rfl | h
    · simp [RomWindow.base]
    · omega
  have hl : hiddenCart.length = State.reset.router.cart.length := by decide
  have hb : Memory.read hiddenCart.bytes (RomWindow.base w + off) =
      Memory.read State.reset.router.cart.bytes (RomWindow.base w + off) := by
    rw [hiddenCart, Cartridge.poke, Memory.read_write, if_neg (by simpa [RomWindow.base] using hk)]
  simp only [Cartridge.byteAt, hl, hb]

theorem witness_BootOverlaySelectsFirmware :
    (0x00FF#16).toNat < 0x0100 ∧ 0x0100 ≤ (0x0100#16).toNat ∧ (0x3FFF#16).toNat < 0x4000 ∧
      State.reset.router.bootActive = true ∧ hiddenCart ≠ State.reset.router.cart ∧
      ∀ w off, w = .romx ∨ 0x0100 ≤ off → hiddenCart.byteAt w off = State.reset.router.cart.byteAt w off :=
  ⟨by decide, by decide, by decide, rfl, by decide, hiddenCart_agrees⟩

theorem witness_WorkingRamIsMirrored :
    (∃ r, State.reset.router.writeAll [(0xDDFF#16, 0xDE#8), (0xFDFF#16, 0x41#8)] = .ok r) ∧
      0xC000 ≤ (0xC000#16).toNat ∧ (0xFDFF#16).toNat ≤ 0xFDFF ∧
      decodeAddr true 0xDE00#16 = .store .wram 0x1E00 ∧ decodeAddr false 0xDFFF#16 = .store .wram 0x1FFF :=
  ⟨powerOn_writeAll _ _ (by simp [InHole]), by decide, by decide, by decide, by decide⟩

theorem witness_UnmappedHoleFaultsEveryAccess :
    (InHole 0xFEA0#16 ∧ InHole 0xFEFF#16) ∧
      ((holeState 0xFEFF#16).run = .running ∧ InHole (holeState 0xFEFF#16).pc) ∧
      ((withBytes 0xFE9F#16 [0x01#8]).read 0xFE9F#16 = .ok 0x01#8 ∧ InHole (0xFE9F#16 + 1#16)) ∧
      (withBytes 0xFE9E#16 [0x01#8]).read 0xFE9E#16 = .ok 0x01#8 ∧ ¬ InHole (0xFE9E#16 + 1#16) ∧
        InHole (0xFE9E#16 + 2#16) := by decide

theorem witness_Read16IsBigEndian :
    (State.reset.router.read 0x0000#16 = .ok 0x00#8 ∧ State.reset.router.read 0xFFFF#16 = .ok 0x00#8) ∧
      State.reset.router.read 0xFEFF#16 = .error (.unmappedAccess 0xFEFF#16 .read) ∧
      State.reset.router.read 0xFE9F#16 = .ok 0x00#8 ∧
      State.reset.router.read (0xFE9F#16 + 1#16) = .error (.unmappedAccess 0xFEA0#16 .read) := by decide

theorem witness_WriteChangesOneByteOrFaults :
    (0x0000#16).toNat < 0x8000 ∧ (0x7FFF#16).toNat < 0x8000 ∧ InHole 0xFEA0#16 ∧
      (0x8000 ≤ (0x8000#16).toNat ∧ ¬ InHole 0x8000#16) ∧ (0x8000 ≤ (0xFFFF#16).toNat ∧ ¬ InHole 0xFFFF#16) ∧
      ∃ t, State.reset.memWrite 0x8000#16 0x01#8 = .ok t :=
  ⟨by decide, by decide, by decide, by decide, by decide, ⟨_, rfl⟩⟩

theorem witness_InstallSetsBothWindows :
    0x3FFF < 0x4000 ∧ StoreId.vram ≠ .rom0 ∧ StoreId.vram ≠ .romx ∧
      ((List.replicate 0x8000 0x01#8) ++ [0x02#8]).take 0x8000 = (List.replicate 0x8000 0x01#8).take 0x8000 :=
  ⟨by decide, by decide, by decide, List.take_append_of_le_length (Nat.le_of_eq List.length_replicate.symm)⟩

theorem witness_RomIsNeverMutated :
    (∃ r, State.reset.router.writeAll [(0x8000#16, 0x01#8), (0xFFFF#16, 0x02#8)] = .ok r) ∧
      (∃ t, exec .nop State.reset = .next t) ∧
      ∀ image, HostEvent.reload image ∉ [HostEvent.runCycle, HostEvent.setBootActive false] :=
  ⟨powerOn_writeAll _ _ (by simp [InHole]), ⟨_, rfl⟩, by simp⟩

theorem witness_ReadReturnsTheLastWrite :
    ∃ s r, construct (powerOn 0x0150) = .ok s ∧
      s.router.writeAll [(0xC000#16, 0x01#8), (0xE000#16, 0x02#8)] = .ok r ∧
      decodeAddr r.bootActive 0xC000#16 = .store .wram 0 := by
  obtain ⟨s, h⟩ := powerOn_construct (Nat.le_refl 0x0150)
  obtain ⟨r, hr⟩ := powerOn_writeAll [(0xC000#16, 0x01#8), (0xE000#16, 0x02#8)] s.router (by simp [InHole])
  exact ⟨s, r, h, hr, decodeAddr_wram (by decide) (by decide)⟩

theorem witness_RamKeepsItsFirstContents :
    (∃ t, step loadState = .next t ∧ t.run = .running) ∧
      ∃ s, construct (powerOn 0x0150) = .ok s ∧ StoreId.writable .oam = true ∧ 0x9F < StoreId.size .oam := by
  obtain ⟨s, h⟩ := powerOn_construct (Nat.le_refl 0x0150)
  exact ⟨next_of_nextSat (by decide), s, h, rfl, by decide⟩

theorem witness_FetchSeesTheLastWrite :
    (∃ t, (holeState 0xC000#16).memWrite 0xC000#16 0x00#8 = .ok t) ∧
      (∃ t, (holeState 0xC000#16).memWrite 0xC000#16 0x01#8 = .ok t ∧ t.read16 0xC001#16 = .ok 0x0000#16) ∧
      ∃ t, (holeState 0xFFFF#16).memWrite 0xFFFF#16 0x02#8 = .ok t := by
  refine ⟨⟨_, rfl⟩, ⟨{ holeState 0xC000#16 with router := (holeState 0xC000#16).router.poke .wram 0 0x01#8 }, ?_, ?_⟩,
    ⟨_, rfl⟩⟩ <;> decide

theorem witness_EqualBytesAreEqualStores :
    Memory.wf 0x80 [(0x00, 0x01#8), (0x7F, 0x02#8)] = true ∧
      ∀ k, k < 0x80 → Memory.read [(0x00, 0x01#8), (0x7F, 0x02#8)] k =
        Memory.read (Memory.write (Memory.write [] 0x7F 0x02#8) 0x00 0x01#8) k := by decide

theorem witness_DecodeOfEncode :
    WellFormed .nop ∧ WellFormed (.ldBcD16 0xFFFF#16) ∧ WellFormed (.unimplemented 0x02#8) := by decide

theorem witness_EncodeOfDecode :
    (∃ i rest, decode [0x01#8, 0x34#8, 0x12#8, 0x00#8] = .ok (i, rest)) ∧
      ∀ i rest, decode [0x01#8, 0x34#8] ≠ .ok (i, rest) :=
  ⟨⟨_, _, rfl⟩, fun _ _ h => by cases h⟩

theorem witness_DecoderIsTotalOnOpcodes :
    0x02#8 ≠ 0x01#8 ∧ 0x02#8 ≠ 0x00#8 ∧ unimplementedState.read unimplementedState.pc = .ok 0x76#8 := by decide

theorem witness_DispatchTableIsComplete : 2 ≤ (0x02#8).toNat ∧ 2 ≤ (0xFF#8).toNat := by decide

theorem witness_StepRunsTheDecodedInstruction :
    loadState.run = .running ∧ WellFormed (.ldBcD16 0x3412#16) ∧
      ∀ k (h : k < (encode (.ldBcD16 0x3412#16)).length),
        loadState.read (loadState.pc + BitVec.ofNat 16 k) = .ok (encode (.ldBcD16 0x3412#16))[k] :=
  ⟨rfl, rfl, by decide⟩

theorem witness_StepIsTheWholeStep :
    haltedState.run = .halted (.unmappedAccess 0xFEA0#16 .read) ∧
      (holeState 0xFEA0#16).read 0xFEA0#16 = .error (.unmappedAccess 0xFEA0#16 .read) ∧
      State.reset.read State.reset.pc = .ok 0x00#8 ∧
      (loadState.read loadState.pc = .ok 0x01#8 ∧ loadState.read16 (loadState.pc + 1#16) = .ok 0x3412#16) ∧
      ((withBytes 0xFE9E#16 [0x01#8]).read 0xFE9E#16 = .ok 0x01#8 ∧
        (withBytes 0xFE9E#16 [0x01#8]).read16 (0xFE9E#16 + 1#16) = .error (.unmappedAccess 0xFEA0#16 .read)) ∧
      unimplementedState.read unimplementedState.pc = .ok 0x76#8 := by decide

theorem witness_RetireRecordsCostAndAdvances :
    ∃ t, (fun s : State => Except.ok (ε := Fault) (s.writePair .BC 0x3412#16)) State.reset = .ok t ∧ t.run = .running :=
  ⟨_, rfl, rfl⟩

theorem witness_FaultPathCommitsNothing :
    (∃ t, step unimplementedState = .next t ∧ t.run = .halted (.unimplementedOpcode 0x76#8 0x0000#16)) ∧
      (∃ f, State.reset.memWrite 0x0000#16 0x01#8 = .error f) ∧
      (holeState 0xFEA0#16).run = .running ∧
      (holeState 0xFEA0#16).fetchInstr = .error (.unmappedAccess 0xFEA0#16 .read) :=
  ⟨next_of_nextSat (by decide), ⟨.readOnlyViolation 0x0000#16 0x01#8, by decide⟩, rfl, by decide⟩

theorem witness_UnimplementedOpcodeHalts :
    unimplementedState.run = .running ∧ unimplementedState.read unimplementedState.pc = .ok 0x76#8 ∧
      2 ≤ (0x76#8).toNat ∧ (withBytes 0xFE9F#16 [0x02#8]).read 0xFE9F#16 = .ok 0x02#8 := by decide

theorem witness_NopRetires : State.reset.run = .running ∧ State.reset.fetchInstr = .ok .nop := by decide

theorem witness_LoadAdvancesByThree :
    loadState.run = .running ∧ loadState.fetchInstr = .ok (.ldBcD16 0x3412#16) := by decide

theorem witness_LoadBCTakesItsImmediate :
    (loadState.run = .running ∧ loadState.read loadState.pc = .ok 0x01#8 ∧
        loadState.read (loadState.pc + 1#16) = .ok 0x34#8 ∧ loadState.read (loadState.pc + 2#16) = .ok 0x12#8) ∧
      ((withBytes 0xFE9F#16 [0x01#8]).read 0xFE9F#16 = .ok 0x01#8 ∧ InHole (0xFE9F#16 + 1#16)) ∧
      (withBytes 0xFE9E#16 [0x01#8]).read 0xFE9E#16 = .ok 0x01#8 ∧ ¬ InHole (0xFE9E#16 + 1#16) ∧
        InHole (0xFE9E#16 + 2#16) := by decide

theorem witness_InstructionFrames :
    (∃ t, exec .nop State.reset = .next t) ∧ (∃ t, exec (.ldBcD16 0x3412#16) State.reset = .next t) ∧
      ∃ t, exec (.unimplemented 0xFF#8) State.reset = .next t := ⟨⟨_, rfl⟩, ⟨_, rfl⟩, ⟨_, rfl⟩⟩

theorem witness_ReadOnlyViolationOnlyFromWrites :
    State.reset.router.write 0x0000#16 0x01#8 = .error (.readOnlyViolation 0x0000#16 0x01#8) ∧
      (bankState 0x0000#16).router.write 0x7FFF#16 0x01#8 = .error (.readOnlyViolation 0x7FFF#16 0x01#8) ∧
      (0x7FFF#16).toNat < 0x8000 ∧ State.reset.run = .running ∧ ∃ t, step State.reset = .next t ∧ t.run = .running :=
  ⟨by decide, by decide, by decide, rfl, next_of_nextSat (by decide)⟩

theorem witness_UnmappedAccessOnlyFromTheHole :
    (∃ t, step (holeState 0xFEFF#16) = .next t ∧ t.run = .halted (.unmappedAccess 0xFEFF#16 .read)) ∧
      (∃ t, step (withBytes 0xFE9F#16 [0x01#8]) = .next t ∧ t.run = .halted (.unmappedAccess 0xFEA0#16 .read)) ∧
      (∃ t, step (withBytes 0xFE9E#16 [0x01#8]) = .next t ∧ t.run = .halted (.unmappedAccess 0xFEA0#16 .read)) ∧
      InHole 0xFEA0#16 :=
  ⟨next_of_nextSat (by decide), next_of_nextSat (by decide), next_of_nextSat (by decide), by decide⟩

theorem witness_UnimplementedOpcodeExactlyWithoutEntry :
    ∃ t, step unimplementedState = .next t ∧ t.run = .halted (.unimplementedOpcode 0x76#8 0x0000#16) :=
  next_of_nextSat (by decide)

theorem witness_ShortCartridgesAreRefused :
    (powerOn 0x014F).cartImage.length < 0x0150 ∧ 0x0150 ≤ (powerOn 0x0150).cartImage.length ∧
      State.reset.run = .running ∧ ∃ t, step State.reset = .next t ∧ t.run = .running :=
  ⟨by rw [powerOn_length]; decide, by rw [powerOn_length], rfl, next_of_nextSat (by decide)⟩

theorem witness_FirstFailureGivesTheFault :
    ((holeState 0xFEA0#16).run = .running ∧ InHole (holeState 0xFEA0#16).pc) ∧
      ((withBytes 0xFE9F#16 [0x76#8]).read 0xFE9F#16 = .ok 0x76#8 ∧ 2 ≤ (0x76#8).toNat ∧
        InHole (0xFE9F#16 + 1#16)) ∧
      ((withBytes 0xFE9F#16 [0x01#8]).pc = 0xFE9F#16 ∧ (withBytes 0xFE9F#16 [0x01#8]).read 0xFE9F#16 = .ok 0x01#8) ∧
      (withBytes 0xFE9E#16 [0x01#8]).pc = 0xFE9E#16 ∧ (withBytes 0xFE9E#16 [0x01#8]).read 0xFE9E#16 = .ok 0x01#8 ∧
        ¬ InHole (0xFE9E#16 + 1#16) ∧ InHole (0xFE9E#16 + 2#16) := by decide

theorem witness_RunCycleAddsTheStepCost :
    (∃ t, step loadState = .next t ∧ (∃ cost, t.stepResult = .ok cost)) ∧
      (∃ t, step unimplementedState = .next t ∧ ∃ f, t.stepResult = .error f) ∧ ∃ f, step haltedState = .fault f := by
  refine ⟨?_, ?_, ⟨_, rfl⟩⟩
  · obtain ⟨t, h, hr⟩ := next_of_nextSat (o := step loadState) (p := fun t => t.run = .running) (by decide)
    exact ⟨t, h, _, by simp only [State.stepResult, hr]; rfl⟩
  · obtain ⟨t, h, hr⟩ := next_of_nextSat (o := step unimplementedState)
      (p := fun t => t.run = .halted (.unimplementedOpcode 0x76#8 0x0000#16)) (by decide)
    exact ⟨t, h, _, by simp only [State.stepResult, hr]; rfl⟩

/-- A session whose clock total has wrapped to 0. -/
def wrappedState : State :=
  { loadState with totalM := 0x4000000000000000#64, totalT := 0#64, lastM := 1, lastT := 4 }

theorem witness_ClockTotalIsFourTimesMachineTotal :
    (∃ s, construct (powerOn 0x0150) = .ok s) ∧
      (∃ t, step wrappedState = .next t ∧ t.run = .running) ∧
      (wrappedState.totalT = 4#64 * wrappedState.totalM ∧ wrappedState.lastT = 4#8 * wrappedState.lastM) ∧
      ∃ s, Reachable s :=
  ⟨powerOn_construct (Nat.le_refl _), next_of_nextSat (by decide), by decide,
    let ⟨_, _, h⟩ := powerOn_reachable [.runCycle, .runCycle, .setBootActive false, .runCycle]
    ⟨_, h⟩⟩

theorem witness_LifecycleOnlyGoesForward :
    (∃ f, construct (powerOn 0x014F) = .error f) ∧ (∃ s, construct (powerOn 0x0150) = .ok s) ∧
      State.reset.run = .running ∧ HostEvent.setBootActive false ≠ .runCycle ∧ State.reset.lifecycle = .loaded ∧
      ∃ s : State, s.lifecycle = .running :=
  ⟨⟨_, if_pos (by rw [powerOn_length]; decide)⟩, powerOn_construct (Nat.le_refl _), rfl, by decide, rfl,
    ⟨{ State.reset with lifecycle := .running }, rfl⟩⟩

theorem witness_HostInputsActOnTheNextFetch :
    (∃ t, setBootActive false (holeState 0x00FF#16) = .next t ∧ (holeState 0x00FF#16).run = .running ∧
        (holeState 0x00FF#16).pc.toNat < 0x0100) ∧
      (∃ t, reload (List.replicate 0x0150 0x01#8) (holeState 0x3FFF#16) = .next t) ∧
      (∃ t, reload (List.replicate 0x0150 0x01#8) (bankState 0x0000#16) = .next t) ∧
      (bankState 0x0000#16).router.bootActive = false ∧
      (∃ t, reload (List.replicate 0x0150 0x01#8) (holeState 0x4000#16) = .next t) ∧
      ∃ t, reload (List.replicate 0x0150 0x01#8) (holeState 0x7FFF#16) = .next t := by
  have h (s : State) (hr : s.run = .running) : ∃ t, reload (List.replicate 0x0150 0x01#8) s = .next t :=
    ⟨{ s with router := s.router.install (List.replicate 0x0150 0x01#8) }, by
      simp only [reload, hr]
      rw [if_neg (by rw [List.length_replicate]; decide)]⟩
  exact ⟨⟨_, rfl, rfl, by decide⟩, h _ rfl, h _ rfl, rfl, h _ rfl, h _ rfl⟩

/-- A state that meets the invariant, not the one after reset: B, C and the counters hold what LD BC,d16 leaves. -/
theorem loaded_inv : ({ loadState with lastM := 3, lastT := 12, regs := { loadState.regs with b := 0x34 } } : State).Inv :=
  ⟨by decide, by decide, by decide, trivial, by decide⟩

theorem witness_StepKeepsTheInvariant : ∃ s t, State.Inv s ∧ step s = .next t := by
  obtain ⟨t, h, -⟩ := next_of_nextSat (p := fun t => t.run = .running)
    (o := step { loadState with lastM := 3, lastT := 12, regs := { loadState.regs with b := 0x34 } }) (by decide)
  exact ⟨_, t, loaded_inv, h⟩

theorem witness_SessionsKeepTheInvariant : (∃ s, State.Inv s) ∧ ∃ s, Reachable s :=
  ⟨⟨_, loaded_inv⟩, witness_FlagRegisterLowNibbleIsHardwired⟩

theorem witness_MemoryOperationsKeepTheForm :
    (∃ s t, State.Inv s ∧ s.memWrite 0xFE9F#16 0x01#8 = .ok t) ∧
      State.reset.router.wf = true ∧ ∃ r, State.reset.router.writeAll [(0xFF7F#16, 0x01#8), (0xFF80#16, 0x02#8)] = .ok r :=
  ⟨⟨_, _, loaded_inv, rfl⟩, reset_stores_wf, powerOn_writeAll _ _ (by simp [InHole])⟩

theorem witness_HiddenBankBytesDoNotInfluenceSteps :
    State.reset.router.bootActive = true ∧
      ∀ w off, w = .romx ∨ 0x0100 ≤ off → hiddenCart.byteAt w off = State.reset.router.cart.byteAt w off :=
  ⟨rfl, hiddenCart_agrees⟩

theorem witness_PlacedWordIsRun :
    decodeTableWord 24 0x123401 = some (.ldBcD16 0x3412#16) ∧
      ∀ k, k < (encode (.ldBcD16 0x3412#16)).length → ¬ InHole ((holeState 0xFE9D#16).pc + BitVec.ofNat 16 k) :=
  ⟨by decide, by decide⟩

end Sys2Proof.Tests
end

section
/-! The rows of the address map and what a router transaction does at each (spec 20_memory R51, R58, R59); with them O14. -/

namespace Sys2Proof.Machine

theorem decodeAddr_vram {b : Bool} {a : Word} (h : 0x8000 ≤ a.toNat) (h' : a.toNat < 0xA000) :
    decodeAddr b a = .store .vram (a.toNat - 0x8000) := by
  simp (disch := omega) only [decodeAddr, if_neg, if_pos]

theorem decodeAddr_eram {b : Bool} {a : Word} (h : 0xA000 ≤ a.toNat) (h' : a.toNat < 0xC000) :
    decodeAddr b a = .store .eram (a.toNat - 0xA000) := by
  simp (disch := omega) only [decodeAddr, if_neg, if_pos]

theorem decodeAddr_oam {b : Bool} {a : Word} (h : 0xFE00 ≤ a.toNat) (h' : a.toNat < 0xFEA0) :
    decodeAddr b a = .store .oam (a.toNat - 0xFE00) := by
  simp (disch := omega) only [decodeAddr, if_neg, if_pos]

theorem decodeAddr_io {b : Bool} {a : Word} (h : 0xFF00 ≤ a.toNat) (h' : a.toNat < 0xFF80) :
    decodeAddr b a = .store .io (a.toNat - 0xFF00) := by
  simp (disch := omega) only [decodeAddr, if_neg, if_pos]

theorem decodeAddr_hram {b : Bool} {a : Word} (h : 0xFF80 ≤ a.toNat) :
    decodeAddr b a = .store .hram (a.toNat - 0xFF80) := by
  simp (disch := omega) only [decodeAddr, if_neg]

theorem Router.read_store {r : Router} {a : Word} {id : StoreId} {off : Nat}
    (h : decodeAddr r.bootActive a = .store id off) : r.read a = .ok (r.byteAt id off) := by
  simp only [Router.read, h]

/-- A write to an address that a store backs succeeds exactly when the store is writable (R59). -/
theorem Router.write_store {r : Router} {a : Word} {id : StoreId} {off : Nat} (v : Byte)
    (h : decodeAddr r.bootActive a = .store id off) :
    r.write a v = if id.writable then .ok (r.poke id off v) else .error (.readOnlyViolation a v) := by
  simp only [Router.write, h]

/-- The read-only windows refuse every write, whichever store backs them (R59, R160). -/
theorem Router.write_readOnly {r : Router} {a : Word} (v : Byte) (h : a.toNat < 0x8000) :
    r.write a v = .error (.readOnlyViolation a v) := by
  obtain ⟨id, off, hd⟩ := decodeAddr_mapped (b := r.bootActive) (show ¬ InHole a by omega)
  rw [Router.write_store v hd, if_neg]
  rw [decodeAddr_writable hd]
  omega

/-- A write at 0x8000 or above that misses the hole replaces the byte the address decodes to (R59). -/
theorem Router.write_high {r : Router} {a : Word} {id : StoreId} {off : Nat} (v : Byte)
    (hd : decodeAddr r.bootActive a = .store id off) (h : 0x8000 ≤ a.toNat) :
    r.write a v = .ok (r.poke id off v) := by
  rw [Router.write_store v hd, if_pos ((decodeAddr_writable hd).2 h)]

/-- Settles O14: one lemma per row of the table, then the read and write columns. -/
theorem addressMapIsTheTable : Obligations.AddressMapIsTheTable := by
  intro r a v
  refine ⟨fun h hb => ?boot, fun h hb => ?overlaid, fun h h' => decodeAddr_rom0 h (by omega),
    fun h h' => decodeAddr_romx h (by omega), fun h h' => decodeAddr_vram h (by omega),
    fun h h' => decodeAddr_eram h (by omega), decodeAddr_wram, fun h h' => decodeAddr_oam h (by omega),
    fun h h' => (decodeAddr_unmapped _ _).2 ⟨h, h'⟩, fun h h' => decodeAddr_io h (by omega), decodeAddr_hram,
    fun id off hd => ⟨decodeAddr_offset hd, Router.read_store hd⟩, fun hd => ?hole,
    fun h => Router.write_readOnly v (by omega), fun h hd => ?write⟩
  case boot => rw [decodeAddr_low (by omega), if_pos hb]
  case overlaid => rw [decodeAddr_low (by omega), if_neg (by simp [hb])]
  case hole =>
    have hole : InHole a := (decodeAddr_unmapped _ _).1 hd
    exact ⟨Router.read_hole hole, Router.write_hole hole⟩
  case write =>
    obtain ⟨id, off, hs⟩ := decodeAddr_mapped (mt (decodeAddr_unmapped r.bootActive a).2 hd)
    exact ⟨_, Router.write_high v hs h⟩

end Sys2Proof.Machine
end

section
/-! A write inside a step: what it changes, and how it is committed or discarded (spec 20_memory R59); with it O19. -/

namespace Sys2Proof.Machine

/-- A memory access of the core that writes changes the router only. -/
theorem State.memWrite_ok {s t : State} {a : Word} {v : Byte} (h : s.memWrite a v = .ok t) :
    s.router.write a v = .ok t.router ∧ t = { s with router := t.router } := by
  unfold State.memWrite at h
  split at h
  · cases h
  · next r hw =>
    cases h
    exact ⟨hw, rfl⟩

/-- Settles O19: a write that succeeds is one `poke` of a writable store, whose frame the laws of the router give. -/
theorem writeChangesOneByteOrFaults : Obligations.WriteChangesOneByteOrFaults := by
  refine ⟨fun r a v => Router.write_readOnly v, fun r a v => Router.write_hole, fun r a v h hole => ?oneByte,
    fun s a v t h => (State.memWrite_ok h).2, fun s e a v t h => State.execute_ok h, fun s e a v t f h => ?discarded⟩
  case oneByte =>
    obtain ⟨id, off, hd⟩ := decodeAddr_mapped (b := r.bootActive) hole
    have writable := (decodeAddr_writable hd).2 h
    exact ⟨id, off, _, hd, Router.write_high v hd h, Router.poke_bootActive r id off v, (Router.poke_rom writable).2,
      Router.byteAt_poke r writable off v⟩
  case discarded => exact State.execute_error (by simp only [h])

end Sys2Proof.Machine
end

section
/-! What keeps the read-only stores: writes, instructions and host transactions (spec 20_memory R71); with it O21. -/

namespace Sys2Proof.Machine

theorem Router.write_keeps_rom {r r' : Router} {a : Word} {v : Byte} (h : r.write a v = .ok r') :
    r'.boot = r.boot ∧ r'.cart = r.cart := by
  obtain ⟨id, off, -, writable, rfl⟩ := Router.write_ok h
  exact Router.poke_rom writable

/-- Successful writes one after another: the first succeeds, then the others do from the router it left. -/
theorem Router.writeAll_cons_ok {r r' : Router} {a : Word} {v : Byte} {rest : List (Word × Byte)}
    (h : r.writeAll ((a, v) :: rest) = .ok r') : ∃ r₁, r.write a v = .ok r₁ ∧ r₁.writeAll rest = .ok r' := by
  unfold Router.writeAll at h
  split at h
  · cases h
  · next r₁ hw => exact ⟨r₁, hw, h⟩

theorem Router.writeAll_keeps_rom {writes : List (Word × Byte)} {r r' : Router} (h : r.writeAll writes = .ok r') :
    r'.boot = r.boot ∧ r'.cart = r.cart := by
  induction writes generalizing r with
  | nil => cases h; exact ⟨rfl, rfl⟩
  | cons w rest ih =>
    obtain ⟨r₁, hw, hrest⟩ := Router.writeAll_cons_ok h
    obtain ⟨boot₁, cart₁⟩ := Router.write_keeps_rom hw
    rw [← boot₁, ← cart₁]
    exact ih hrest

/-- No instruction writes memory (R50). -/
theorem exec_router {i : Instr} {s t : State} (h : exec i s = .next t) : t.router = s.router := by
  cases i <;> cases h <;> rfl

/-- A transaction other than a reload at most clears `boot_active` in the router. -/
theorem afterEvent_router {s : State} {e : HostEvent} (he : ∀ image, e ≠ .reload image) :
    (afterEvent s e).router = s.router ∨ (afterEvent s e).router = { s.router with bootActive := false } := by
  cases e with
  | reload image => exact absurd rfl (he image)
  | runCycle =>
    obtain ⟨f, -, h⟩ | ⟨-, t, hstep, h⟩ := afterEvent_runCycle s <;> rw [h]
    · exact .inl rfl
    · exact .inl (t.addTotals_router.trans (step_router hstep))
  | setBootActive b =>
    obtain h | ⟨-, -, h⟩ := afterEvent_setBootActive s b <;> rw [h]
    · exact .inl rfl
    · exact .inr rfl

theorem afterEvent_cart {s : State} {e : HostEvent} (he : ∀ image, e ≠ .reload image) :
    (afterEvent s e).router.cart = s.router.cart := by
  obtain h | h := afterEvent_router (s := s) he <;> rw [h]

theorem afterEvent_boot (s : State) (e : HostEvent) : (afterEvent s e).router.boot = s.router.boot := by
  by_cases he : ∃ image, e = .reload image
  · obtain ⟨image, rfl⟩ := he
    obtain h | ⟨-, -, h⟩ | ⟨-, -, h⟩ := afterEvent_reload s image <;> rw [h] <;> rfl
  · obtain h | h := afterEvent_router (s := s) (not_exists.1 he) <;> rw [h]

/-- Settles O21: each kind of change keeps the read-only stores once, hence so does any list of them. -/
theorem romIsNeverMutated : Obligations.RomIsNeverMutated := by
  refine ⟨fun _ _ _ => Router.writeAll_keeps_rom, fun i s t h => ?exec, fun events s => ?boot,
    fun events s noReload => ?cart⟩
  case exec => simp only [exec_router h, and_self]
  case boot =>
    exact runEvents_induction (P := fun t => t.router.boot = s.router.boot)
      (fun t e ht => (afterEvent_boot t e).trans ht) events s rfl
  case cart =>
    refine List.foldlRecOn (motive := fun t : State => t.router.cart = s.router.cart) events afterEvent rfl
      fun t ht e mem => (afterEvent_cart ?_).trans ht
    rintro image rfl
    exact noReload image mem

end Sys2Proof.Machine
end

section
/-! An opcode without a table entry: its fetch reads no operand byte, so the step is the fault alone (spec 40_engine
R128); with it O36. -/

namespace Sys2Proof.Machine

/-- DECODE to EXECUTE (R129): a running session runs the instruction it fetched. -/
theorem step_of_fetchInstr {s : State} {i : Instr} (h : s.run = .running) (hf : s.fetchInstr = .ok i) :
    step s = exec i s := by
  simp only [step, h, hf]

/-- The fetch of an opcode without an entry depends on the opcode byte only (R107, R128). -/
theorem State.fetchInstr_of_unimplemented {s : State} {op : Byte} (h : s.read s.pc = .ok op) (hop : 2 ≤ op.toNat) :
    s.fetchInstr = .ok (.unimplemented op) := by
  obtain ⟨notNop, notLoad⟩ := byte_ne_of_two_le hop
  obtain ⟨h0, -⟩ | ⟨h1, -⟩ | ⟨h1, -⟩ | ⟨-, hf⟩ := State.fetchInstr_of_opcode h
  · exact absurd h0 notNop
  · exact absurd h1 notLoad
  · exact absurd h1 notLoad
  · exact hf

theorem exec_unimplemented (op : Byte) (s : State) :
    exec (.unimplemented op) s = .next (s.takeFault (.unimplementedOpcode op s.pc)) :=
  execUnimplemented_eq op s

/-- Settles O36: the fetch answers the class whatever follows the opcode, and its meaning is the fault. -/
theorem unimplementedOpcodeHalts : Obligations.UnimplementedOpcodeHalts := by
  refine ⟨fun op s _ => exec_unimplemented op s, fun s op running hread hop => ?_⟩
  have fetched : s.fetchInstr = .ok (.unimplemented op) := State.fetchInstr_of_unimplemented hread hop
  calc step s
    _ = exec (.unimplemented op) s := step_of_fetchInstr running fetched
    _ = .next (s.takeFault (.unimplementedOpcode op s.pc)) := exec_unimplemented op s

end Sys2Proof.Machine
end

section
/-! What RETIRE leaves: `pc` past the instruction, and the cost as the result of the step (spec 40_engine R125); with
it O33. -/

namespace Sys2Proof.Machine

theorem State.retire_pc_toNat (s : State) (e : Entry) :
    (s.retire e).pc.toNat = (s.pc.toNat + e.length) % 0x10000 := by
  rw [State.retire_pc, BitVec.toNat_add, BitVec.toNat_ofNat, Nat.add_mod_mod]

/-- A retired instruction's caller gets the fixed cost of its entry (R120, R125). -/
theorem State.retire_stepResult {s : State} (e : Entry) (h : s.run = .running) :
    (s.retire e).stepResult = .ok e.cost := by
  simp only [State.stepResult, State.retire_run, h, State.retire_lastM, State.retire_lastT]

/-- Settles O33: EXECUTE commits the staged state retired, and the laws of `retire` give each part. -/
theorem retireRecordsCostAndAdvances : Obligations.RetireRecordsCostAndAdvances := by
  intro s t e effect staged running
  exact ⟨t.retire e, State.execute_ok staged, rfl, t.retire_lastM e, t.retire_lastT e, t.retire_pc_toNat e,
    running, State.retire_stepResult e running⟩

end Sys2Proof.Machine
end

section
/-! NOP and the totals of a `run_cycle` that retires (spec 41_control_nop R141, 60_exceptions R181); with it O37. -/

namespace Sys2Proof.Machine

theorem exec_nop (s : State) : exec .nop s = .next (s.retire nopEntry) := execNop_eq s

/-- What NOP changes: `pc` and the cost of the last instruction (R141). -/
theorem State.retire_nopEntry (s : State) :
    s.retire nopEntry = { s with lastM := 1#8, lastT := 4#8, pc := s.pc + 1#16 } := rfl

/-- A returned cost is added to the totals, modulo 2^64 (R181). -/
theorem State.addTotals_of_stepResult {s : State} {cost : Cost} (h : s.stepResult = .ok cost) :
    s.addTotals = { s with totalM := s.totalM + cost.machine.setWidth 64,
                           totalT := s.totalT + cost.clock.setWidth 64 } := by
  simp only [State.addTotals, h]

theorem runCycle_of_step {s t : State} (h : step s = .next t) :
    runCycle s = .next { t.addTotals with lifecycle := .running } := by
  simp only [runCycle, h]

/-- Settles O37: NOP only retires, and its `run_cycle` adds the cost that the retirement returns. -/
theorem nopRetires : Obligations.NopRetires := by
  refine ⟨fun s => (exec_nop s).trans (congrArg _ s.retire_nopEntry), fun s running fetched => ?_⟩
  have stepped : step s = .next (s.retire nopEntry) := (step_of_fetchInstr running fetched).trans (exec_nop s)
  have result : (s.retire nopEntry).stepResult = .ok nopEntry.cost := State.retire_stepResult nopEntry running
  refine ⟨⟨_, stepped, s.retire_nopEntry, result⟩, _, runCycle_of_step stepped, ?_⟩
  rw [State.addTotals_of_stepResult result]
  exact ⟨rfl, rfl, rfl⟩

end Sys2Proof.Machine
end

section
/-! LD BC,d16 as a step: the pair is staged and the load retires with its entry (spec 42_load16 R151); with it O38. -/

namespace Sys2Proof.Machine

theorem exec_ldBcD16 (d16 : Word) (s : State) :
    exec (.ldBcD16 d16) s = .next ((s.writePair .BC d16).retire ldBcD16Entry) :=
  execLdBcD16_eq d16 s

/-- Settles O38: the write to BC keeps `pc` and the run state, so the retirement gives the advance and the cost. -/
theorem loadAdvancesByThree : Obligations.LoadAdvancesByThree := by
  refine ⟨⟨rfl, rfl⟩, fun s d16 running fetched => ?_⟩
  have stepped : step s = .next ((s.writePair .BC d16).retire ldBcD16Entry) :=
    (step_of_fetchInstr running fetched).trans (exec_ldBcD16 d16 s)
  have stillRunning : (s.writePair .BC d16).run = .running := (s.writePair_run .BC d16).trans running
  exact ⟨_, stepped, State.retire_pc _ ldBcD16Entry, State.retire_stepResult ldBcD16Entry stillRunning⟩

end Sys2Proof.Machine
end

section
/-! Decoding and encoding of byte lists (spec 30_encoding R100 to R106); with it O26, O27, O28, O29 and O30. -/

namespace Sys2Proof

theorem decode_nop (rest : List Byte) : decode (0x00#8 :: rest) = .ok (.nop, rest) := rfl

theorem decode_ldBcD16 (hi lo : Byte) (rest : List Byte) :
    decode (0x01#8 :: hi :: lo :: rest) = .ok (.ldBcD16 (joinBytes hi lo), rest) := rfl

theorem decode_unimplemented {op : Byte} (h : 2 ≤ op.toNat) (rest : List Byte) :
    decode (op :: rest) = .ok (.unimplemented op, rest) := by
  simp only [decode, operandCount_unimplemented h, instrOf_unimplemented h]

/-- A list that ends before its instruction does: it is empty, or cuts LD BC,d16 off. -/
def EndsEarly (bytes : List Byte) : Prop :=
  bytes = [] ∨ ∃ operands, bytes = 0x01#8 :: operands ∧ operands.length < 2

theorem decode_endsEarly {bytes : List Byte} (h : EndsEarly bytes) : ∃ e, decode bytes = .error e := by
  obtain rfl | ⟨operands, rfl, short⟩ := h
  · exact ⟨_, rfl⟩
  · match operands, short with
    | [], _ => exact ⟨_, rfl⟩
    | [_], _ => exact ⟨_, rfl⟩

/-- An encoding decodes to its instruction, whatever bytes follow it. -/
theorem decode_encode_append {i : Instr} (h : WellFormed i) (rest : List Byte) :
    decode (encode i ++ rest) = .ok (i, rest) := by
  cases i with
  | nop => exact decode_nop rest
  | ldBcD16 d16 =>
    calc decode (encode (.ldBcD16 d16) ++ rest)
      _ = .ok (.ldBcD16 (joinBytes (hiByte d16) (loByte d16)), rest) := decode_ldBcD16 _ _ rest
      _ = .ok (.ldBcD16 d16, rest) := by rw [joinBytes_hi_lo]
  | unimplemented op => exact decode_unimplemented ((wellFormed_unimplemented op).1 h) rest

/-- A list of bytes starts with an encoding, or ends before its first instruction does. -/
theorem startsWithEncoding_or_endsEarly (bytes : List Byte) :
    (∃ i rest, WellFormed i ∧ bytes = encode i ++ rest) ∨ EndsEarly bytes := by
  match bytes with
  | [] => exact .inr (.inl rfl)
  | op :: rest =>
    obtain rfl | rfl | hop := opcode_cases op
    · exact .inl ⟨.nop, rest, rfl, rfl⟩
    · match rest with
      | hi :: lo :: rest' =>
        refine .inl ⟨.ldBcD16 (joinBytes hi lo), rest', rfl, ?_⟩
        simp [encode, hiByte_joinBytes, loByte_joinBytes]
      | [] => exact .inr (.inr ⟨_, rfl, by decide⟩)
      | [_] => exact .inr (.inr ⟨_, rfl, by simp⟩)
    · exact .inl ⟨.unimplemented op, rest, (wellFormed_unimplemented op).2 hop, rfl⟩

/-- What decodes is an encoding: each encoding has one meaning. -/
theorem encode_of_decode {bytes : List Byte} {i : Instr} {rest : List Byte} (h : decode bytes = .ok (i, rest)) :
    WellFormed i ∧ bytes = encode i ++ rest := by
  obtain ⟨i', rest', wf, rfl⟩ | early := startsWithEncoding_or_endsEarly bytes
  · rw [decode_encode_append wf] at h
    cases h
    exact ⟨wf, rfl⟩
  · obtain ⟨e, he⟩ := decode_endsEarly early
    rw [he] at h
    cases h

/-- Settles O26. -/
theorem decodeOfEncode : Obligations.DecodeOfEncode :=
  fun _ rest wf => decode_encode_append wf rest

/-- Settles O27: every list starts with an encoding, which decodes, or ends early, which does not. -/
theorem encodeOfDecode : Obligations.EncodeOfDecode := by
  refine ⟨fun bytes i rest => encode_of_decode, fun bytes => ⟨fun refused => ?_, fun early i rest h => ?_⟩⟩
  · obtain ⟨i, rest, wf, rfl⟩ | early := startsWithEncoding_or_endsEarly bytes
    · exact absurd (decode_encode_append wf rest) (refused i rest)
    · exact early
  · obtain ⟨e, he⟩ := decode_endsEarly early
    rw [he] at h
    cases h

/-- Settles O28: one case for each of the two entries and one for the class without an entry. -/
theorem decoderIsTotalOnOpcodes : Obligations.DecoderIsTotalOnOpcodes := by
  refine ⟨fun op b₁ b₂ rest => ?total, fun op hop => ?alone, fun s op hread h0 h1 => ?fetch⟩
  case total =>
    obtain rfl | rfl | hop := opcode_cases op
    · exact ⟨.nop, decode_nop _, by simp⟩
    · exact ⟨_, decode_ldBcD16 b₁ b₂ rest, by simp⟩
    · obtain ⟨h0, h1⟩ := byte_ne_of_two_le hop
      exact ⟨.unimplemented op, by simp [decode_unimplemented hop, h1], by simp [h0, h1]⟩
  case alone =>
    obtain rfl | rfl | h := opcode_cases op
    · exact ⟨.nop, decode_nop []⟩
    · exact absurd rfl hop
    · exact ⟨.unimplemented op, decode_unimplemented h []⟩
  case fetch => exact Machine.State.fetchInstr_of_unimplemented hread (two_le_of_byte_ne h0 h1)

/-- Settles O29: the two entries by evaluation, the others by the law of the table, the effects by those of `exec`. -/
theorem dispatchTableIsComplete : Obligations.DispatchTableIsComplete :=
  ⟨rfl, rfl, fun _ => dispatchTable_unimplemented, Machine.exec_nop, Machine.exec_ldBcD16,
    fun s op _ => Machine.exec_unimplemented op s⟩

/-- Settles O30. -/
theorem writtenOutWordsDecode : Obligations.WrittenOutWordsDecode :=
  ⟨decode_nop [], decode_ldBcD16 0x34#8 0x12#8 [], decode_unimplemented (by decide) [],
    decode_unimplemented (by decide) [0x11#8], decode_unimplemented (by decide) []⟩

end Sys2Proof
end

section
/-! The register pairs and the flags as views of the register file (spec 10_state R21, R23, R25); with them O4, O5. -/

namespace Sys2Proof.Machine

/-- The upper nibble of a byte is what the mask keeps (R25). -/
theorem maskF_getLsbD (v : Byte) (i : Nat) : (maskF v).getLsbD i = (decide (4 ≤ i) && v.getLsbD i) := by
  have mask : ∀ i < 8, (0xF0#8).getLsbD i = decide (4 ≤ i) := by decide
  rw [maskF, BitVec.getLsbD_and, Bool.and_comm]
  by_cases hi : i < 8
  · rw [mask i hi]
  · simp [BitVec.getLsbD_of_ge v i (by omega)]

theorem maskF_and_low (v : Byte) : maskF v &&& 0x0F#8 = 0#8 := by
  rw [maskF, BitVec.and_assoc]
  exact BitVec.and_zero

theorem maskF_maskF (v : Byte) : maskF (maskF v) = maskF v := by
  simp [maskF, BitVec.and_assoc]

theorem State.readReg_F (s : State) : s.readReg .F = maskF s.regs.f := rfl

/-- A pair's two registers are different, and only AF contains F (R21). -/
theorem Pair.lo_ne_hi (p : Pair) : p.lo ≠ p.hi := by cases p <;> decide

theorem Pair.hi_ne_F (p : Pair) : p.hi ≠ .F := by cases p <;> decide

theorem Pair.lo_ne_F {p : Pair} (h : p ≠ .AF) : p.lo ≠ .F := by
  cases p with
  | AF => exact absurd rfl h
  | BC | DE | HL => decide

theorem State.readReg_writePair_hi (s : State) (p : Pair) (v : Word) : (s.writePair p v).readReg p.hi = hiByte v := by
  rw [State.writePair, State.readReg_writeReg, if_neg p.lo_ne_hi.symm, State.readReg_writeReg, if_pos rfl,
    if_neg p.hi_ne_F]

theorem State.readReg_writePair_lo (s : State) (p : Pair) (v : Word) :
    (s.writePair p v).readReg p.lo = if p.lo = .F then maskF (loByte v) else loByte v := by
  rw [State.writePair, State.readReg_writeReg, if_pos rfl]

theorem State.readReg_writePair_of_ne (s : State) {p : Pair} (v : Word) {r : Reg} (hhi : r ≠ p.hi) (hlo : r ≠ p.lo) :
    (s.writePair p v).readReg r = s.readReg r := by
  rw [State.writePair, State.readReg_writeReg, if_neg hlo, State.readReg_writeReg, if_neg hhi]

theorem State.readPair_writePair (s : State) {p : Pair} (v : Word) (h : p ≠ .AF) :
    (s.writePair p v).readPair p = v := by
  rw [State.readPair, State.readReg_writePair_hi, State.readReg_writePair_lo, if_neg (Pair.lo_ne_F h),
    joinBytes_hi_lo]

/-- A mask of a word is a mask of each of its bytes. -/
theorem joinBytes_and (a b c d : Byte) : joinBytes a b &&& joinBytes c d = joinBytes (a &&& c) (b &&& d) :=
  BitVec.and_append

theorem State.readPair_writePair_AF (s : State) (v : Word) : (s.writePair .AF v).readPair .AF = v &&& 0xFFF0#16 :=
  calc (s.writePair .AF v).readPair .AF
    _ = joinBytes (hiByte v) (maskF (loByte v)) := by
      rw [State.readPair, State.readReg_writePair_hi, State.readReg_writePair_lo, Pair.lo, if_pos rfl]
    _ = joinBytes (hiByte v) (loByte v) &&& joinBytes 0xFF#8 0xF0#8 := by
      rw [joinBytes_and, maskF, show hiByte v &&& 0xFF#8 = hiByte v from BitVec.and_allOnes]
    _ = v &&& 0xFFF0#16 := by rw [joinBytes_hi_lo]; rfl

theorem State.readPair_AF_low (s : State) : s.readPair .AF &&& 0x000F#16 = 0#16 :=
  calc joinBytes (s.readReg .A) (maskF s.regs.f) &&& joinBytes 0x00#8 0x0F#8
    _ = joinBytes (s.readReg .A &&& 0x00#8) (maskF s.regs.f &&& 0x0F#8) := joinBytes_and _ _ _ _
    _ = joinBytes 0x00#8 0x00#8 := by rw [maskF_and_low]; exact congrArg (joinBytes · 0x00#8) BitVec.and_zero

/-- Settles O4. -/
theorem pairIsAViewOfItsTwoRegisters : Obligations.PairIsAViewOfItsTwoRegisters :=
  ⟨fun _ _ => joinBytes_toNat _ _, rfl, rfl, rfl, rfl, State.readReg_writePair_hi,
    fun s p v h => (s.readReg_writePair_lo p v).trans (if_neg (Pair.lo_ne_F h)),
    fun s _ v => s.readPair_writePair v, State.readPair_writePair_AF, State.readPair_AF_low,
    fun s _ v _ => s.readReg_writePair_of_ne v, fun _ _ _ => ⟨_, rfl⟩⟩

theorem four_le_flagBit (x : Flag) : 4 ≤ flagBit x := by cases x <;> decide

theorem flagOf_eq (f : Byte) (x : Flag) : flagOf f x = f.getLsbD (flagBit x) := by
  simp [flagOf, maskF_getLsbD, four_le_flagBit]

/-- A flag's bit is its own (R23). -/
theorem getLsbD_flagBit (x y : Flag) : (1#8 <<< flagBit x).getLsbD (flagBit y) = decide (y = x) := by
  cases x <;> cases y <;> rfl

/-- Writing a flag sets its bit of F and keeps the bits of the others (R23). -/
theorem flagOf_withFlag (f : Byte) (x y : Flag) (b : Bool) :
    flagOf (withFlag f x b) y = if y = x then b else flagOf f y := by
  have inByte : flagBit y < 8 := by cases y <;> decide
  rw [flagOf_eq, flagOf_eq, withFlag, maskF_getLsbD]
  cases b with
  | true =>
    rw [if_pos rfl, BitVec.getLsbD_or, getLsbD_flagBit]
    by_cases h : y = x <;> simp only [h, four_le_flagBit] <;> simp
  | false =>
    rw [if_neg (by decide), BitVec.getLsbD_and, BitVec.getLsbD_not, getLsbD_flagBit]
    by_cases h : y = x <;> simp only [h, four_le_flagBit, inByte] <;> simp

theorem State.flag_writeFlag (s : State) (x y : Flag) (b : Bool) :
    (s.writeFlag x b).flag y = if y = x then b else s.flag y :=
  calc flagOf (maskF (withFlag s.regs.f x b)) y
    _ = flagOf (withFlag s.regs.f x b) y := by rw [withFlag, maskF_maskF]
    _ = if y = x then b else s.flag y := flagOf_withFlag s.regs.f x y b

/-- Settles O5. -/
theorem flagsLieInTheHighNibbleOfF : Obligations.FlagsLieInTheHighNibbleOfF := by
  refine ⟨fun s => ⟨rfl, rfl, rfl, rfl⟩, fun s x b => ?_, fun s x b y h => ?_, fun s i hi => ?_, fun s x b r h => ?_⟩
  · rw [State.flag_writeFlag, if_pos rfl]
  · rw [State.flag_writeFlag, if_neg h]
  · simp [State.readReg_F, maskF_getLsbD, Nat.not_le.2 hi]
  · rw [State.writeFlag, State.readReg_writeReg, if_neg h]

end Sys2Proof.Machine
end

section
/-! Memory reads of two bytes, and the fetch of each opcode (spec 20_memory R58 to R60, 40_engine R121 to R123); with
them O18. -/

namespace Sys2Proof.Machine

theorem Router.read16_of_first_error {r : Router} {a : Word} {f : Fault} (h : r.read a = .error f) :
    r.read16 a = .error f := by
  simp only [Router.read16, h]

theorem Router.read16_of_second_error {r : Router} {a : Word} {hi : Byte} {f : Fault} (h : r.read a = .ok hi)
    (h' : r.read (a + 1#16) = .error f) : r.read16 a = .error f := by
  simp only [Router.read16, h, h']

theorem word_add_one_add_one (a : Word) : a + 1#16 + 1#16 = a + 2#16 := BitVec.add_assoc a 1#16 1#16

theorem Router.read_mapped {r : Router} {a : Word} (h : ¬ InHole a) : ∃ v, r.read a = .ok v :=
  let ⟨_, _, hd⟩ := decodeAddr_mapped h
  ⟨_, Router.read_store hd⟩

/-- Settles O18. -/
theorem read16IsBigEndian : Obligations.Read16IsBigEndian := by
  have composed (r : Router) (a : Word) (hi lo : Byte) (h₁ : r.read a = .ok hi) (h₂ : r.read (a + 1#16) = .ok lo) :
      ∃ v, r.read16 a = .ok v ∧ v.toNat = hi.toNat * 256 + lo.toNat :=
    ⟨_, Router.read16_ok h₁ h₂, joinBytes_toNat hi lo⟩
  exact ⟨composed, fun _ _ _ => Router.read16_of_first_error, fun _ _ _ _ => Router.read16_of_second_error,
    fun r => composed r 0xFFFF#16⟩

theorem State.fetchInstr_of_nop {s : State} (h : s.read s.pc = .ok 0x00#8) : s.fetchInstr = .ok .nop := by
  simp only [State.fetchInstr, h, operandCount_zero, instrOf_zero]

/-- The fetch of LD BC,d16 is decided by the read of its immediate (R102, R123). -/
theorem State.fetchInstr_of_load {s : State} {d16 : Word} (h : s.read s.pc = .ok 0x01#8)
    (himm : s.read16 (s.pc + 1#16) = .ok d16) : s.fetchInstr = .ok (.ldBcD16 d16) := by
  simp only [State.fetchInstr, h, operandCount_one, State.immediate16, himm, instrOf_one]

theorem State.fetchInstr_of_load_fault {s : State} {f : Fault} (h : s.read s.pc = .ok 0x01#8)
    (himm : s.read16 (s.pc + 1#16) = .error f) : s.fetchInstr = .error f := by
  simp only [State.fetchInstr, h, operandCount_one, State.immediate16, himm]

/-- The read of an immediate whose first byte is in the hole (R161, R167). -/
theorem State.immediate_hole_first {s : State} (h : InHole (s.pc + 1#16)) :
    s.read16 (s.pc + 1#16) = .error (.unmappedAccess (s.pc + 1#16) .read) :=
  Router.read16_of_first_error (Router.read_hole h)

/-- The read of an immediate whose second byte is the first in the hole (R161, R167). -/
theorem State.immediate_hole_second {s : State} (h : ¬ InHole (s.pc + 1#16)) (h' : InHole (s.pc + 2#16)) :
    s.read16 (s.pc + 1#16) = .error (.unmappedAccess (s.pc + 2#16) .read) := by
  obtain ⟨hi, first⟩ := Router.read_mapped (r := s.router) h
  have second : s.router.read (s.pc + 1#16 + 1#16) = .error (.unmappedAccess (s.pc + 2#16) .read) := by
    rw [word_add_one_add_one, Router.read_hole h']
  exact Router.read16_of_second_error first second

end Sys2Proof.Machine
end

section
/-! The step by what it fetches, one rule per row of R129, and what its faults can be (spec 40_engine R129); with them
O9, O10, O17, O24, O31, O32, O34, O35, O39 and O45. -/

namespace Sys2Proof.Machine

theorem step_of_fetch_fault {s : State} {f : Fault} (h : s.run = .running) (hf : s.fetchInstr = .error f) :
    step s = .next (s.takeFault f) := by
  simp only [step, h, hf]

theorem step_of_nop {s : State} (h : s.run = .running) (hread : s.read s.pc = .ok 0x00#8) :
    step s = .next (s.retire nopEntry) :=
  (step_of_fetchInstr h (State.fetchInstr_of_nop hread)).trans (exec_nop s)

theorem step_of_load {s : State} {d16 : Word} (h : s.run = .running) (hread : s.read s.pc = .ok 0x01#8)
    (himm : s.read16 (s.pc + 1#16) = .ok d16) :
    step s = .next ((s.writePair .BC d16).retire ldBcD16Entry) :=
  (step_of_fetchInstr h (State.fetchInstr_of_load hread himm)).trans (exec_ldBcD16 d16 s)

theorem step_of_load_fault {s : State} {f : Fault} (h : s.run = .running) (hread : s.read s.pc = .ok 0x01#8)
    (himm : s.read16 (s.pc + 1#16) = .error f) : step s = .next (s.takeFault f) :=
  step_of_fetch_fault h (State.fetchInstr_of_load_fault hread himm)

theorem step_of_unimplemented {s : State} {op : Byte} (h : s.run = .running) (hread : s.read s.pc = .ok op)
    (hop : 2 ≤ op.toNat) : step s = .next (s.takeFault (.unimplementedOpcode op s.pc)) :=
  (step_of_fetchInstr h (State.fetchInstr_of_unimplemented hread hop)).trans (exec_unimplemented op s)

theorem step_of_hole {s : State} (h : s.run = .running) (hole : InHole s.pc) :
    step s = .next (s.takeFault (.unmappedAccess s.pc .read)) :=
  step_of_fetch_fault h (State.fetchInstr_of_fault (Router.read_hole hole))

theorem step_of_load_hole_first {s : State} (h : s.run = .running) (hread : s.read s.pc = .ok 0x01#8)
    (hole : InHole (s.pc + 1#16)) : step s = .next (s.takeFault (.unmappedAccess (s.pc + 1#16) .read)) :=
  step_of_load_fault h hread (State.immediate_hole_first hole)

theorem step_of_load_hole_second {s : State} (h : s.run = .running) (hread : s.read s.pc = .ok 0x01#8)
    (mapped : ¬ InHole (s.pc + 1#16)) (hole : InHole (s.pc + 2#16)) :
    step s = .next (s.takeFault (.unmappedAccess (s.pc + 2#16) .read)) :=
  step_of_load_fault h hread (State.immediate_hole_second mapped hole)

/-- What LD BC,d16 changes: B, C, `pc` and the cost of the last instruction (R150, R151). -/
theorem State.writePair_BC_retire (s : State) (d16 : Word) :
    (s.writePair .BC d16).retire ldBcD16Entry =
      { s with regs := { s.regs with b := hiByte d16, c := loByte d16 },
               lastM := 3#8, lastT := 12#8, pc := s.pc + 3#16 } := rfl

@[simp] theorem State.retire_readReg (s : State) (e : Entry) (r : Reg) : (s.retire e).readReg r = s.readReg r := rfl

@[simp] theorem State.retire_readPair (s : State) (e : Entry) (p : Pair) :
    (s.retire e).readPair p = s.readPair p := rfl

theorem State.takeFault_stepResult (s : State) (f : Fault) : (s.takeFault f).stepResult = .error f := rfl

/-- A step ends in a fault, which changes the run state only, or retires one of the two instructions and leaves the
session running. -/
theorem step_fault_or_retire {s t : State} (h : step s = .next t) :
    (∃ f, t = s.takeFault f) ∨
      (t.run = .running ∧ s.read s.pc = .ok 0x00#8 ∧ t = s.retire nopEntry) ∨
      (t.run = .running ∧ s.read s.pc = .ok 0x01#8 ∧ ∃ d16, s.read16 (s.pc + 1#16) = .ok d16 ∧
        t = (s.writePair .BC d16).retire ldBcD16Entry) := by
  obtain ⟨running, ⟨f, -, ht⟩ | ⟨hread, ht⟩ | ⟨d16, hread, himm, ht⟩ | ⟨op, -, -, ht⟩⟩ := step_next_cases h
  · exact .inl ⟨f, ht⟩
  · exact .inr (.inl ⟨by rw [ht]; exact running, hread, ht⟩)
  · exact .inr (.inr ⟨by rw [ht]; exact running, hread, d16, himm, ht⟩)
  · exact .inl ⟨_, ht⟩

/-- A step that halts the session took that fault: nothing else of the state changed (R127). -/
theorem step_halted_eq {s t : State} {f : Fault} (h : step s = .next t) (ht : t.run = .halted f) :
    t = s.takeFault f := by
  obtain ⟨g, rfl⟩ | ⟨running, -⟩ | ⟨running, -⟩ := step_fault_or_retire h
  · cases ht
    rfl
  · rw [running] at ht
    cases ht
  · rw [running] at ht
    cases ht

/-- A step that leaves the session running retired NOP or LD BC,d16 (R125). -/
theorem step_running_cases {s t : State} (h : step s = .next t) (ht : t.run = .running) :
    (s.read s.pc = .ok 0x00#8 ∧ t = s.retire nopEntry) ∨
      (s.read s.pc = .ok 0x01#8 ∧ ∃ d16, s.read16 (s.pc + 1#16) = .ok d16 ∧
        t = (s.writePair .BC d16).retire ldBcD16Entry) := by
  obtain ⟨f, rfl⟩ | ⟨-, nop⟩ | ⟨-, load⟩ := step_fault_or_retire h
  · cases ht
  · exact .inl nop
  · exact .inr load

/-- Settles O9. -/
theorem pcAdvancesByTheEncodedLength : Obligations.PcAdvancesByTheEncodedLength := by
  refine fun s t h => ⟨fun running => ?_, fun ⟨f, halted⟩ => ?_⟩
  · obtain ⟨hread, rfl⟩ | ⟨hread, d16, -, rfl⟩ := step_running_cases h running
    · exact ⟨1, State.retire_pc_toNat s nopEntry, .inl ⟨hread, rfl⟩⟩
    · exact ⟨3, State.retire_pc_toNat (s.writePair .BC d16) ldBcD16Entry, .inr ⟨hread, rfl⟩⟩
  · rw [step_halted_eq h halted, State.takeFault_pc]

/-- Settles O10: each retirement overwrites both counters, so it does not depend on what they held. -/
theorem countersHoldTheLastCost : Obligations.CountersHoldTheLastCost := by
  refine ⟨fun s t h running => ⟨?result, ?cost⟩, fun s t f h halted => ?kept, fun s m c t h running => ?unread⟩
  case result => simp only [State.stepResult, running]
  case cost =>
    obtain ⟨hread, rfl⟩ | ⟨hread, d16, -, rfl⟩ := step_running_cases h running
    · exact .inl ⟨hread, rfl, rfl⟩
    · exact .inr ⟨hread, rfl, rfl⟩
  case kept =>
    rw [step_halted_eq h halted]
    exact ⟨rfl, rfl⟩
  case unread =>
    have hr : s.run = .running := step_next_running h
    obtain ⟨hread, rfl⟩ | ⟨hread, d16, himm, rfl⟩ := step_running_cases h running
    · exact step_of_nop hr hread
    · exact step_of_load hr hread himm

/-- Settles O17. -/
theorem unmappedHoleFaultsEveryAccess : Obligations.UnmappedHoleFaultsEveryAccess :=
  ⟨fun _ _ _ hole => ⟨Router.read_hole hole, Router.write_hole hole⟩, fun _ => step_of_hole,
    fun _ => step_of_load_hole_first, fun _ => step_of_load_hole_second⟩

/-- A write that succeeded is read back at its address (R59, R75). -/
theorem State.read_of_memWrite {s t : State} {a : Word} {v : Byte} (h : s.memWrite a v = .ok t) :
    t.read a = .ok v := by
  obtain ⟨id, off, hd, writable, ht⟩ := Router.write_ok (State.memWrite_ok h).1
  have hd' : decodeAddr t.router.bootActive a = .store id off := by rw [ht, Router.poke_bootActive, hd]
  rw [State.read, Router.read_store hd', ht, Router.byteAt_poke s.router writable, if_pos ⟨rfl, rfl⟩]

/-- Settles O24: the write keeps `pc` and the run state, so the fetch reads the byte written. -/
theorem fetchSeesTheLastWrite : Obligations.FetchSeesTheLastWrite := by
  intro s t op running h
  have frame := (State.memWrite_ok h).2
  have pc : t.pc = s.pc := by rw [frame]
  have running' : t.run = .running := by rw [frame]; exact running
  have hread : t.read t.pc = .ok op := by rw [pc]; exact State.read_of_memWrite h
  refine ⟨hread, ?_, ?_, fun hop => ?_⟩
  · rintro rfl
    exact step_of_fetchInstr running' (State.fetchInstr_of_nop hread)
  · rintro rfl d16 himm
    exact step_of_fetchInstr running' (State.fetchInstr_of_load hread himm)
  · exact step_of_fetchInstr running' (State.fetchInstr_of_unimplemented hread hop)

/-- The instruction fetched where an encoding stands (R121 to R123). -/
theorem State.fetchInstr_of_encoding {s : State} {i : Instr} (wf : WellFormed i)
    (h : ∀ k (hk : k < (encode i).length), s.read (s.pc + BitVec.ofNat 16 k) = .ok (encode i)[k]) :
    s.fetchInstr = .ok i := by
  have opcode (hk : 0 < (encode i).length) : s.read s.pc = .ok (encode i)[0] := by simpa using h 0 hk
  cases i with
  | nop => exact State.fetchInstr_of_nop (opcode (by decide))
  | ldBcD16 d16 =>
    have hi : s.router.read (s.pc + 1#16) = .ok (hiByte d16) := h 1 (by simp [encode])
    have lo : s.router.read (s.pc + 1#16 + 1#16) = .ok (loByte d16) := by
      rw [word_add_one_add_one]
      exact h 2 (by simp [encode])
    have himm : s.read16 (s.pc + 1#16) = .ok d16 := by
      rw [State.read16, Router.read16_ok hi lo, joinBytes_hi_lo]
    exact State.fetchInstr_of_load (opcode (by simp [encode])) himm
  | unimplemented op =>
    exact State.fetchInstr_of_unimplemented (opcode (by simp [encode])) ((wellFormed_unimplemented op).1 wf)

/-- Settles O31. -/
theorem stepRunsTheDecodedInstruction : Obligations.StepRunsTheDecodedInstruction :=
  fun _ _ running wf h => step_of_fetchInstr running (State.fetchInstr_of_encoding wf h)

/-- Settles O32: one rule of the step for each case of the fetch. -/
theorem stepIsTheWholeStep : Obligations.StepIsTheWholeStep := by
  refine ⟨fun s f => step_halted, fun s running => ⟨fun f hread => ?fetch, fun hread => ?nop, fun hread =>
    ⟨fun f himm => ?operand, fun d16 himm => ?load⟩, fun op hread h0 h1 => ?unimplemented⟩⟩
  case fetch => exact ⟨_, step_of_fetch_fault running (State.fetchInstr_of_fault hread), rfl, rfl⟩
  case nop => exact ⟨_, step_of_nop running hread, s.retire_nopEntry, State.retire_stepResult nopEntry running⟩
  case operand => exact ⟨_, step_of_load_fault running hread himm, rfl, rfl⟩
  case load =>
    exact ⟨_, step_of_load running hread himm, s.writePair_BC_retire d16,
      State.retire_stepResult ldBcD16Entry ((s.writePair_run .BC d16).trans running)⟩
  case unimplemented => exact ⟨_, step_of_unimplemented running hread (two_le_of_byte_ne h0 h1), rfl, rfl⟩

/-- Settles O34. -/
theorem faultPathCommitsNothing : Obligations.FaultPathCommitsNothing := by
  refine ⟨fun s t f h halted => ?_, fun s e effect f => State.execute_error, fun s f => step_of_fetch_fault⟩
  rw [step_halted_eq h halted]
  exact ⟨rfl, s.takeFault_stepResult f⟩

/-- A running session's step has a next state. -/
theorem step_running {s : State} (h : s.run = .running) : ∃ t, step s = .next t := by
  obtain ⟨f, -, h⟩ | ⟨-, h⟩ | ⟨d16, -, h⟩ | ⟨op, -, h⟩ := step_cases h <;> exact ⟨_, h⟩

/-- Settles O35. -/
theorem runningStepAlwaysAnswers : Obligations.RunningStepAlwaysAnswers := by
  refine ⟨fun s => ⟨fun ⟨t, h⟩ => step_next_running h, step_running⟩, fun s r refused => ?_⟩
  cases hr : s.run with
  | running =>
    obtain ⟨t, h⟩ := step_running hr
    rw [h] at refused
    cases refused
  | halted f =>
    rw [step_halted hr] at refused
    cases refused

/-- Settles O39: the immediate read at `pc + 1` is the two bytes joined, and the load splits it again. -/
theorem loadBCTakesItsImmediate : Obligations.LoadBCTakesItsImmediate := by
  refine ⟨fun d16 s => (exec_ldBcD16 d16 s).trans (congrArg _ (s.writePair_BC_retire d16)), fun s running hread =>
    ⟨fun immHi immLo hhi hlo => ?_, step_of_load_hole_first running hread,
      step_of_load_hole_second running hread⟩⟩
  have himm : s.read16 (s.pc + 1#16) = .ok (joinBytes immHi immLo) :=
    Router.read16_ok hhi (by rw [word_add_one_add_one]; exact hlo)
  refine ⟨_, step_of_load running hread himm, ?state, ?pair,
    State.retire_stepResult ldBcD16Entry ((s.writePair_run .BC _).trans running)⟩
  case state => rw [State.writePair_BC_retire, hiByte_joinBytes, loByte_joinBytes]
  case pair =>
    rw [State.retire_readPair, State.readPair_writePair s _ (by decide), joinBytes_toNat]

/-- Settles O45: the two addresses of the last clause are those whose operands meet the hole at 0xFEA0. -/
theorem firstFailureGivesTheFault : Obligations.FirstFailureGivesTheFault := by
  refine fun s running => ⟨step_of_hole running, fun op hread hop _ => step_of_unimplemented running hread hop,
    step_of_load_hole_first running, step_of_load_hole_second running, ?_⟩
  rintro (pc | pc) hread
  · have first : s.pc + 1#16 = 0xFEA0#16 := by rw [pc]; rfl
    rw [← first]
    exact step_of_load_hole_first running hread (by rw [first]; decide)
  · have first : s.pc + 1#16 = 0xFE9F#16 := by rw [pc]; rfl
    have second : s.pc + 2#16 = 0xFEA0#16 := by rw [pc]; rfl
    rw [← second]
    exact step_of_load_hole_second running hread (by rw [first]; decide) (by rw [second]; decide)

end Sys2Proof.Machine
end

section
/-! Equal contents are equal stores (spec 10_state section 7); with it O25. -/

namespace Sys2Proof.Machine

/-- A canonical list is its first cell, a listed byte, and a canonical list of the offsets above it. -/
theorem Memory.wfFrom_cons {size lo a : Nat} {b : Byte} {rest : Memory} :
    Memory.wfFrom size lo ((a, b) :: rest) = true ↔
      lo ≤ a ∧ a < size ∧ b ≠ Memory.unlisted ∧ Memory.wfFrom size (a + 1) rest = true := by
  simp [Memory.wfFrom, and_assoc]

/-- What a canonical list of larger offsets does not list tells it from one that lists it. -/
theorem Memory.read_cons_ne {size lo a : Nat} {b : Byte} {rest m : Memory}
    (h : Memory.wfFrom size lo ((a, b) :: rest) = true) (hm : Memory.wfFrom size (a + 1) m = true) :
    Memory.read ((a, b) :: rest) a ≠ Memory.read m a := by
  obtain ⟨-, -, listed, -⟩ := Memory.wfFrom_cons.1 h
  rw [Memory.read_of_wfFrom_lt hm (Nat.lt_succ_self a)]
  simpa [Memory.read] using listed

theorem Memory.wfFrom_above {size lo a j : Nat} {b : Byte} {rest : Memory}
    (h : Memory.wfFrom size lo ((a, b) :: rest) = true) (hj : j < a) :
    Memory.wfFrom size (j + 1) ((a, b) :: rest) = true := by
  obtain ⟨-, hs, listed, hrest⟩ := Memory.wfFrom_cons.1 h
  exact Memory.wfFrom_cons.2 ⟨hj, hs, listed, hrest⟩

/-- Two canonical lists that begin with the same cell and read alike go on with lists that read alike. -/
theorem Memory.read_tail_eq {size a k : Nat} {b : Byte} {rest rest' : Memory}
    (h : Memory.wfFrom size (a + 1) rest = true) (h' : Memory.wfFrom size (a + 1) rest' = true)
    (eq : Memory.read ((a, b) :: rest) k = Memory.read ((a, b) :: rest') k) :
    Memory.read rest k = Memory.read rest' k := by
  by_cases hk : a = k
  · rw [Memory.read_of_wfFrom_lt h (by omega), Memory.read_of_wfFrom_lt h' (by omega)]
  · simpa [Memory.read, hk] using eq

theorem Memory.eq_of_read_eq {size lo : Nat} {m m' : Memory} (h : Memory.wfFrom size lo m = true)
    (h' : Memory.wfFrom size lo m' = true) (eq : ∀ k, k < size → Memory.read m k = Memory.read m' k) : m = m' := by
  induction m generalizing lo m' with
  | nil =>
    cases m' with
    | nil => rfl
    | cons cell' rest' =>
      obtain ⟨-, hs, -, -⟩ := Memory.wfFrom_cons.1 h'
      exact absurd (eq _ hs).symm (Memory.read_cons_ne h' (m := []) rfl)
  | cons cell rest ih =>
    obtain ⟨a, b⟩ := cell
    obtain ⟨-, hs, -, hrest⟩ := Memory.wfFrom_cons.1 h
    cases m' with
    | nil => exact absurd (eq a hs) (Memory.read_cons_ne h (m := []) rfl)
    | cons cell' rest' =>
      obtain ⟨a', b'⟩ := cell'
      obtain ⟨-, hs', -, hrest'⟩ := Memory.wfFrom_cons.1 h'
      obtain hlt | rfl | hgt := Nat.lt_trichotomy a a'
      · exact absurd (eq a hs) (Memory.read_cons_ne h (Memory.wfFrom_above h' hlt))
      · obtain rfl : b = b' := by simpa [Memory.read] using eq a hs
        rw [ih hrest hrest' fun k hk => Memory.read_tail_eq hrest hrest' (eq k hk)]
      · exact absurd (eq a' hs').symm (Memory.read_cons_ne h' (Memory.wfFrom_above h hgt))

/-- Settles O25. -/
theorem equalBytesAreEqualStores : Obligations.EqualBytesAreEqualStores :=
  fun _ _ _ => Memory.eq_of_read_eq

end Sys2Proof.Machine
end

section
/-! What the router reads: under the overlay, through the mirror, from an installed image and after a list of writes
(spec 20_memory R52, R53, R70, R75); with it O15, O16, O20 and O22. -/

namespace Sys2Proof.Machine

/-- Two routers with one `boot_active` read alike when they show the same bytes wherever an address leads. -/
theorem SameReads.of_byteAt {r₁ r₂ : Router} (active : r₁.bootActive = r₂.bootActive)
    (eq : ∀ a id off, decodeAddr r₁.bootActive a = .store id off → r₁.byteAt id off = r₂.byteAt id off) :
    SameReads r₁ r₂ := by
  intro a
  obtain ⟨id, off, hd, hr⟩ | ⟨hole, hr⟩ := Router.read_cases r₁ a
  · rw [hr, eq a id off hd, Router.read_store (active ▸ hd)]
  · rw [hr, Router.read_hole hole]

/-- The cartridge image shows in the two windows only. -/
theorem Router.byteAt_cart_congr (r : Router) {c c' : Cartridge} {id : StoreId} {off : Nat}
    (h0 : id = .rom0 → c.byteAt .rom0 off = c'.byteAt .rom0 off)
    (hx : id = .romx → c.byteAt .romx off = c'.byteAt .romx off) :
    ({ r with cart := c } : Router).byteAt id off = ({ r with cart := c' } : Router).byteAt id off := by
  cases id with
  | rom0 => exact h0 rfl
  | romx => exact hx rfl
  | boot | vram | eram | wram | oam | io | hram => rfl

/-- While the overlay is on, an address reaches bank 0 above its first 256 bytes only (R52). -/
theorem decodeAddr_overlay_rom0 {a : Word} {off : Nat} (h : decodeAddr true a = .store .rom0 off) : 0x0100 ≤ off := by
  by_cases low : a.toNat < 0x0100
  · rw [decodeAddr_low low] at h
    cases h
  · simp only [decodeAddr, low, if_false] at h
    split_ifs at h <;> cases h
    omega

/-- What the overlay hides of an image is not read (R52). -/
theorem Router.sameReads_hidden {r : Router} {c : Cartridge} (active : r.bootActive = true)
    (eq : ∀ w off, w = .romx ∨ 0x0100 ≤ off → c.byteAt w off = r.cart.byteAt w off) :
    SameReads r { r with cart := c } := by
  refine SameReads.of_byteAt rfl fun a id off hd => r.byteAt_cart_congr (fun h0 => ?_) fun _ => ?_
  · subst h0
    exact (eq .rom0 off (.inr (decodeAddr_overlay_rom0 (active ▸ hd)))).symm
  · exact (eq .romx off (.inl rfl)).symm

theorem Router.read_low {r : Router} {a : Word} (h : a.toNat < 0x0100) :
    r.read a = .ok (r.byteAt (if r.bootActive then .boot else .rom0) a.toNat) :=
  Router.read_store (decodeAddr_low h)

/-- Settles O15. -/
theorem bootOverlaySelectsFirmware : Obligations.BootOverlaySelectsFirmware := by
  refine ⟨fun r a h => ?_, fun r a h h' => Router.read_store (decodeAddr_rom0 h h'),
    fun r c => Router.sameReads_hidden, fun r a h => Router.read_low (r := r.setBootActive false) h⟩
  rw [Router.read_low h]
  split <;> rfl

theorem Router.read_wram {r : Router} {a : Word} (h : 0xC000 ≤ a.toNat) (h' : a.toNat ≤ 0xFDFF) :
    r.read a = .ok (r.byteAt .wram (a.toNat % 8192)) :=
  Router.read_store (decodeAddr_wram h h')

/-- The upper part of working RAM is out of the mirror's reach: the sprite table stands there (R53). -/
theorem decodeAddr_wram_upper {b : Bool} {a : Word} {off : Nat} (hoff : 0x1E00 ≤ off)
    (h : decodeAddr b a = .store .wram off) : 0xDE00 ≤ a.toNat ∧ a.toNat ≤ 0xDFFF := by
  unfold decodeAddr at h
  dsimp only at h
  split_ifs at h <;> cases h
  omega

/-- Settles O16: both addresses lead to one offset of working RAM, and a write to it is one `poke`. -/
theorem workingRamIsMirrored : Obligations.WorkingRamIsMirrored := by
  refine ⟨fun r r' writes _ a h h' => ?mirror,
    fun r a v h h' => ⟨_, Router.write_high v (decodeAddr_wram h h') (by omega), fun a' ha ha' => ?write⟩,
    fun b a off => decodeAddr_wram_upper⟩
  case mirror =>
    have lower : (BitVec.ofNat 16 (0xC000 + (a.toNat - 0xC000) % 8192)).toNat = 0xC000 + (a.toNat - 0xC000) % 8192 := by
      rw [BitVec.toNat_ofNat]
      omega
    have offset : (0xC000 + (a.toNat - 0xC000) % 8192) % 8192 = a.toNat % 8192 := by omega
    rw [Router.read_wram h h', Router.read_wram (by omega) (by omega), lower, offset]
  case write =>
    rw [Router.read_wram ha ha', Router.read_wram ha ha', Router.byteAt_poke r rfl]
    by_cases same : a'.toNat % 8192 = a.toNat % 8192 <;> simp [same]

theorem imageByte_eq (image : List Byte) (w : RomWindow) (off : Nat) :
    imageByte image w off = if h : RomWindow.base w + off < image.length then image[RomWindow.base w + off]
      else Config.absentRom w off := by
  by_cases h : RomWindow.base w + off < image.length <;> simp [imageByte, h]

/-- The windows show the first 0x8000 bytes of an image only (R70, 92 D15). -/
theorem imageByte_take (image : List Byte) (w : RomWindow) {off : Nat} (h : off < 0x4000) :
    imageByte (image.take 0x8000) w off = imageByte image w off := by
  have hw : RomWindow.base w ≤ 0x4000 := by cases w <;> decide
  rw [imageByte, List.getElem?_take_of_lt (by omega), imageByte]

/-- Settles O20: the image is installed as the router's image, and what it shows is `imageByte`. -/
theorem installSetsBothWindows : Obligations.InstallSetsBothWindows := by
  refine ⟨fun r image w off _ => Cartridge.byteAt_ofImage image w off, fun r image off _ => ⟨?rom0, ?romx⟩,
    fun r image id off h0 hx => ?others, fun r image => rfl, fun r image image' eq => ?invisible⟩
  case rom0 =>
    refine ((Cartridge.byteAt_ofImage image .rom0 off).trans (imageByte_eq image .rom0 off)).trans ?_
    simp [RomWindow.base]
  case romx => exact (Cartridge.byteAt_ofImage image .romx off).trans (imageByte_eq image .romx off)
  case others => exact r.byteAt_cart_congr (fun h => absurd h h0) (fun h => absurd h hx)
  case invisible =>
    have shown (w : RomWindow) {off : Nat} (h : off < 0x4000) :
        (Cartridge.ofImage image).byteAt w off = (Cartridge.ofImage image').byteAt w off := by
      rw [Cartridge.byteAt_ofImage, Cartridge.byteAt_ofImage, ← imageByte_take image w h, eq, imageByte_take image' w h]
    refine SameReads.of_byteAt rfl fun a id off hd => r.byteAt_cart_congr ?_ ?_ <;>
      (rintro rfl; exact shown _ (decodeAddr_offset hd))

theorem lastWrite_cons (b : Bool) (id : StoreId) (off : Nat) (a : Word) (v : Byte) (rest : List (Word × Byte)) :
    lastWrite b id off ((a, v) :: rest) =
      (lastWrite b id off rest).or (if decodeAddr b a = .store id off then some v else none) := by
  rw [lastWrite]
  cases lastWrite b id off rest <;> rfl

/-- A store byte after one write: the value written, if the address decodes to it (R59). -/
theorem Router.byteAt_write {r r' : Router} {a : Word} {v : Byte} (h : r.write a v = .ok r') (id : StoreId)
    (off : Nat) : r'.byteAt id off = if decodeAddr r.bootActive a = .store id off then v else r.byteAt id off := by
  obtain ⟨id', off', hd, writable, rfl⟩ := Router.write_ok h
  rw [Router.byteAt_poke r writable, hd]
  simp only [Target.store.injEq, eq_comm]

/-- A store byte after a list of writes: the last one to it, or what it held before (R75). -/
theorem Router.byteAt_writeAll {writes : List (Word × Byte)} {r r' : Router} (h : r.writeAll writes = .ok r')
    (id : StoreId) (off : Nat) :
    r'.byteAt id off = (lastWrite r.bootActive id off writes).getD (r.byteAt id off) := by
  induction writes generalizing r with
  | nil => cases h; rfl
  | cons w rest ih =>
    obtain ⟨a, v⟩ := w
    obtain ⟨r₁, hw, hrest⟩ := Router.writeAll_cons_ok h
    rw [ih hrest, Router.write_bootActive hw, Router.byteAt_write hw, lastWrite_cons, Option.getD_or]
    split <;> rfl

/-- A construction that succeeded gives every store its first contents (R35, R201). -/
theorem construct_byteAt {p : PowerOn} {s : State} (h : construct p = .ok s) (id : StoreId) (off : Nat) :
    s.router.byteAt id off = p.initialByte id off := by
  unfold construct at h
  split at h
  · cases h
  · cases h
    cases id with
    | rom0 | romx => exact Cartridge.byteAt_ofImage p.cartImage _ off
    | boot | vram | eram | wram | oam | io | hram => exact Memory.read_ofList _ off

theorem construct_bootActive {p : PowerOn} {s : State} (h : construct p = .ok s) : s.router.bootActive = true := by
  obtain ⟨-, -, -, -, -, -, -, -, -, -, active⟩ := construct_ok h
  exact active

/-- Settles O22. -/
theorem readReturnsTheLastWrite : Obligations.ReadReturnsTheLastWrite := by
  have general {writes : List (Word × Byte)} {r r' : Router} (h : r.writeAll writes = .ok r') (a : Word)
      (id : StoreId) (off : Nat) (hd : decodeAddr r'.bootActive a = .store id off) :
      r'.read a = .ok ((lastWrite r.bootActive id off writes).getD (r.byteAt id off)) := by
    rw [Router.read_store hd, Router.byteAt_writeAll h]
  refine ⟨fun writes r r' => general, fun p s writes r' built h a id off hd => ?_⟩
  rw [general h a id off hd, construct_bootActive built, construct_byteAt built]

end Sys2Proof.Machine
end

section
/-! Where an instruction is placed for the fetch, and that it is fetched there (log entry 8); with it O55. -/

namespace Sys2Proof.Machine

/-- Where each store begins in the address map (R51). -/
def StoreId.start : StoreId → Nat
  | .boot | .rom0 => 0
  | .romx => 0x4000
  | .vram => 0x8000
  | .eram => 0xA000
  | .wram => 0xC000
  | .oam => 0xFE00
  | .io => 0xFF00
  | .hram => 0xFF80

/-- An offset gives its address modulo the size of working RAM, the one store that is mirrored (R51, R53). -/
theorem decodeAddr_start {b : Bool} {a : Word} {id : StoreId} {off : Nat} (h : decodeAddr b a = .store id off) :
    a.toNat % 8192 = (id.start + off) % 8192 := by
  unfold decodeAddr at h
  dsimp only at h
  split_ifs at h <;> cases h <;> simp only [StoreId.start] <;> omega

/-- The image reaches the byte of a window. -/
def Cartridge.Holds (c : Cartridge) (w : RomWindow) (off : Nat) : Prop := RomWindow.base w + off < c.length

theorem Cartridge.byteAt_of_holds {c : Cartridge} {w : RomWindow} {off : Nat} (h : c.Holds w off) :
    c.byteAt w off = Memory.read c.bytes (RomWindow.base w + off) :=
  if_pos h

theorem Cartridge.poke_holds_same (c : Cartridge) (w : RomWindow) (off : Nat) (v : Byte) :
    (c.poke w off v).Holds w off :=
  Nat.le_max_right _ _

theorem Cartridge.Holds.poke {c : Cartridge} {w' : RomWindow} {off' : Nat} (h : c.Holds w' off') (w : RomWindow)
    (off : Nat) (v : Byte) : (c.poke w off v).Holds w' off' :=
  Nat.lt_of_lt_of_le h (Nat.le_max_left _ _)

theorem Cartridge.byteAt_poke_same (c : Cartridge) (w : RomWindow) (off : Nat) (v : Byte) :
    (c.poke w off v).byteAt w off = v := by
  rw [Cartridge.byteAt_of_holds (c.poke_holds_same w off v), Cartridge.poke, Memory.read_write, if_pos rfl]

/-- A byte that the image reaches is kept when another one is replaced, even where that makes the image longer. -/
theorem Cartridge.byteAt_poke_ne {c : Cartridge} {w w' : RomWindow} {off off' : Nat} (v : Byte) (h : c.Holds w' off')
    (ne : RomWindow.base w' + off' ≠ RomWindow.base w + off) : (c.poke w off v).byteAt w' off' = c.byteAt w' off' := by
  rw [Cartridge.byteAt_of_holds (h.poke w off v), Cartridge.byteAt_of_holds h, Cartridge.poke, Memory.read_write,
    if_neg ne]

/-- The bytes that a router holds itself: those of a window as far as the image reaches, and all of the other stores. -/
def Router.Holds (r : Router) : StoreId → Nat → Prop
  | .rom0, off => r.cart.Holds .rom0 off
  | .romx, off => r.cart.Holds .romx off
  | .boot, _ | .vram, _ | .eram, _ | .wram, _ | .oam, _ | .io, _ | .hram, _ => True

theorem Router.poke_holds_same (r : Router) (id : StoreId) (off : Nat) (v : Byte) : (r.poke id off v).Holds id off := by
  cases id with
  | rom0 | romx => exact Cartridge.poke_holds_same _ _ _ _
  | boot | vram | eram | wram | oam | io | hram => trivial

theorem Router.byteAt_poke_same (r : Router) (id : StoreId) (off : Nat) (v : Byte) :
    (r.poke id off v).byteAt id off = v := by
  cases id with
  | rom0 | romx => exact Cartridge.byteAt_poke_same _ _ _ _
  | boot | vram | eram | wram | oam | io | hram => exact (Memory.read_write _ off off v).trans (if_pos rfl)

theorem Router.Holds.poke {r : Router} {jd : StoreId} {j : Nat} (h : r.Holds jd j) (id : StoreId) (off : Nat)
    (v : Byte) : (r.poke id off v).Holds jd j := by
  cases jd with
  | boot | vram | eram | wram | oam | io | hram => trivial
  | rom0 | romx =>
    cases id with
    | rom0 | romx => exact Cartridge.Holds.poke h _ off v
    | boot | vram | eram | wram | oam | io | hram => exact h

/-- A byte that the router holds is kept when a byte at another place of the address map is replaced. -/
theorem Router.byteAt_poke_ne {r : Router} {id jd : StoreId} {off j : Nat} (v : Byte) (h : r.Holds jd j)
    (ne : id.start + off ≠ jd.start + j) : (r.poke id off v).byteAt jd j = r.byteAt jd j := by
  cases id with
  | boot =>
    cases jd with
    | boot => exact (Memory.read_write _ off j v).trans (if_neg fun e : j = off => ne (e ▸ rfl))
    | rom0 | romx | vram | eram | wram | oam | io | hram => rfl
  | rom0 | romx =>
    cases jd with
    | rom0 | romx => exact Cartridge.byteAt_poke_ne v h ne.symm
    | boot | vram | eram | wram | oam | io | hram => rfl
  | vram | eram | wram | oam | io | hram =>
    rw [Router.byteAt_poke r rfl, if_neg]
    rintro ⟨rfl, rfl⟩
    exact ne rfl

/-- A store at `a` holds the byte `v`, so `a` reads as `v`. -/
def Router.Shows (r : Router) (a : Word) (v : Byte) : Prop :=
  ∃ id off, decodeAddr r.bootActive a = .store id off ∧ r.Holds id off ∧ r.byteAt id off = v

theorem Router.Shows.read {r : Router} {a : Word} {v : Byte} (h : r.Shows a v) : r.read a = .ok v := by
  obtain ⟨id, off, hd, -, rfl⟩ := h
  exact Router.read_store hd

theorem Router.poke_shows_same {r : Router} {a : Word} {id : StoreId} {off : Nat} (v : Byte)
    (h : decodeAddr r.bootActive a = .store id off) : (r.poke id off v).Shows a v :=
  ⟨id, off, (r.poke_bootActive id off v).symm ▸ h, r.poke_holds_same id off v, r.byteAt_poke_same id off v⟩

/-- What an address shows is kept by a byte placed at an address that differs modulo 8192. -/
theorem Router.Shows.poke {r : Router} {a a' : Word} {v v' : Byte} {id : StoreId} {off : Nat} (h : r.Shows a v)
    (hd : decodeAddr r.bootActive a' = .store id off) (ne : a'.toNat % 8192 ≠ a.toNat % 8192) :
    (r.poke id off v').Shows a v := by
  obtain ⟨jd, j, hj, holds, rfl⟩ := h
  have apart : id.start + off ≠ jd.start + j := by
    intro e
    rw [decodeAddr_start hd, decodeAddr_start hj, e] at ne
    exact ne rfl
  exact ⟨jd, j, (r.poke_bootActive id off v').symm ▸ hj, holds.poke id off v', Router.byteAt_poke_ne v' holds apart⟩

theorem Router.place_cons_mapped {r : Router} {a : Word} {id : StoreId} {off : Nat} (v : Byte) (rest : List Byte)
    (h : decodeAddr r.bootActive a = .store id off) :
    r.place a (v :: rest) = (r.poke id off v).place (a + 1#16) rest := by
  simp only [Router.place, h]

theorem Router.place_cons_hole {r : Router} {a : Word} (v : Byte) (rest : List Byte) (h : InHole a) :
    r.place a (v :: rest) = r.place (a + 1#16) rest := by
  simp only [Router.place, (decodeAddr_unmapped _ _).2 h]

theorem word_succ_add (a : Word) (k : Nat) : a + 1#16 + BitVec.ofNat 16 k = a + BitVec.ofNat 16 (k + 1) := by
  rw [BitVec.add_assoc, ← BitVec.ofNat_add, Nat.add_comm]

/-- Consecutive addresses modulo the size of working RAM, which divides 2^16. -/
theorem word_add_mod (a : Word) (k : Nat) : (a + BitVec.ofNat 16 k).toNat % 8192 = (a.toNat + k) % 8192 := by
  rw [BitVec.toNat_add, BitVec.toNat_ofNat]
  omega

/-- What an address shows is kept by bytes placed at addresses that are not the same modulo 8192. -/
theorem Router.Shows.place {r : Router} {a : Word} {v : Byte} (h : r.Shows a v) (a' : Word) (bytes : List Byte)
    (ne : ∀ k < bytes.length, (a' + BitVec.ofNat 16 k).toNat % 8192 ≠ a.toNat % 8192) :
    (r.place a' bytes).Shows a v := by
  induction bytes generalizing r a' with
  | nil => exact h
  | cons b rest ih =>
    have ne0 : a'.toNat % 8192 ≠ a.toNat % 8192 := by simpa using ne 0 (Nat.zero_lt_succ _)
    have neRest (k : Nat) (hk : k < rest.length) :
        (a' + 1#16 + BitVec.ofNat 16 k).toNat % 8192 ≠ a.toNat % 8192 := by
      rw [word_succ_add]
      exact ne (k + 1) (Nat.succ_lt_succ hk)
    by_cases hole : InHole a'
    · rw [Router.place_cons_hole b rest hole]
      exact ih h _ neRest
    · obtain ⟨id, off, hd⟩ := decodeAddr_mapped (b := r.bootActive) hole
      rw [Router.place_cons_mapped b rest hd]
      exact ih (h.poke hd ne0) _ neRest

/-- Each byte placed outside the hole shows at its address, as long as the bytes do not wrap onto each other. -/
theorem Router.place_shows {r : Router} {a : Word} {bytes : List Byte} (short : bytes.length ≤ 8192) {k : Nat}
    (hk : k < bytes.length) (mapped : ¬ InHole (a + BitVec.ofNat 16 k)) :
    (r.place a bytes).Shows (a + BitVec.ofNat 16 k) bytes[k] := by
  induction bytes generalizing r a k with
  | nil => cases hk
  | cons b rest ih =>
    rw [List.length_cons] at short hk
    cases k with
    | zero =>
      rw [BitVec.add_zero] at mapped ⊢
      obtain ⟨id, off, hd⟩ := decodeAddr_mapped (b := r.bootActive) mapped
      rw [Router.place_cons_mapped b rest hd]
      refine (Router.poke_shows_same b hd).place _ rest fun k hk => ?_
      rw [word_succ_add, word_add_mod]
      omega
    | succ k =>
      rw [← word_succ_add] at mapped ⊢
      have tail {r' : Router} : (r'.place (a + 1#16) rest).Shows (a + 1#16 + BitVec.ofNat 16 k) rest[k] :=
        ih (by omega) (by omega) mapped
      by_cases hole : InHole a
      · rw [Router.place_cons_hole b rest hole]
        exact tail
      · obtain ⟨id, off, hd⟩ := decodeAddr_mapped (b := r.bootActive) hole
        rw [Router.place_cons_mapped b rest hd]
        exact tail

/-- A table word places exactly the bytes of the instruction it decodes to. -/
theorem tableInstrBytes_of_decode {nbits w : Nat} {i : Instr} (h : decodeTableWord nbits w = some i) :
    WellFormed i ∧ tableInstrBytes nbits w = encode i := by
  unfold decodeTableWord at h
  split at h
  · next i' rest hdec =>
    cases h
    obtain ⟨wf, hbytes⟩ := encode_of_decode hdec
    obtain ⟨opcode, operands, henc, hlen⟩ : ∃ opcode operands,
        encode i = opcode :: operands ∧ operands.length = operandCount opcode := by
      cases i with
      | nop => exact Laws.EncodeLength.nop wf
      | ldBcD16 d16 => exact Laws.EncodeLength.ldBcD16 d16 wf
      | unimplemented op => exact Laws.EncodeLength.unimplemented op wf
    have hop : BitVec.ofNat 8 (w % 2 ^ nbits) = opcode := by
      rw [henc] at hbytes
      exact (List.cons.inj hbytes).1
    have length : (encode i).length = 1 + operandCount opcode := by
      rw [henc, List.length_cons, hlen, Nat.add_comm]
    exact ⟨wf, by rw [tableInstrBytes, hop, hbytes, ← length, List.take_left]⟩
  · cases h

/-- Settles O55: the placed bytes show at the addresses the fetch reads. -/
theorem placedWordIsRun : Obligations.PlacedWordIsRun := by
  intro s nbits w i decoded mapped
  obtain ⟨wf, hbytes⟩ := tableInstrBytes_of_decode decoded
  have short : (encode i).length ≤ 8192 := by cases i <;> simp [encode]
  refine step_of_fetchInstr (s.withFetchWord_run nbits w) (State.fetchInstr_of_encoding wf fun k hk => ?_)
  rw [State.read, State.withFetchWord_pc, State.withFetchWord_router, hbytes]
  exact (Router.place_shows short hk (mapped k hk)).read

end Sys2Proof.Machine
end

section
/-! What every instruction and every step leaves unchanged (spec 41_control_nop, 42_load16, 40_engine R127 and R128);
with it O40. -/

namespace Sys2Proof.Machine

/-- What no instruction and no step changes: the router, `sp`, the totals, the lifecycle, all registers but B and C. -/
structure StepFrame (s t : State) : Prop where
  router : t.router = s.router
  sp : t.sp = s.sp
  totalM : t.totalM = s.totalM
  totalT : t.totalT = s.totalT
  lifecycle : t.lifecycle = s.lifecycle
  regs : t.regs = { s.regs with b := t.regs.b, c := t.regs.c }

theorem State.takeFault_frame (s : State) (f : Fault) : StepFrame s (s.takeFault f) := ⟨rfl, rfl, rfl, rfl, rfl, rfl⟩

theorem State.retire_nopEntry_frame (s : State) : StepFrame s (s.retire nopEntry) := ⟨rfl, rfl, rfl, rfl, rfl, rfl⟩

theorem State.load_frame (s : State) (d16 : Word) : StepFrame s ((s.writePair .BC d16).retire ldBcD16Entry) :=
  ⟨rfl, rfl, rfl, rfl, rfl, rfl⟩

theorem exec_frame {i : Instr} {s t : State} (h : exec i s = .next t) : StepFrame s t := by
  cases i with
  | nop => cases h; exact s.retire_nopEntry_frame
  | ldBcD16 d16 => cases h; exact s.load_frame d16
  | unimplemented op => cases h; exact s.takeFault_frame _

theorem step_frame {s t : State} (h : step s = .next t) : StepFrame s t := by
  obtain ⟨f, rfl⟩ | ⟨-, -, rfl⟩ | ⟨-, -, d16, -, rfl⟩ := step_fault_or_retire h
  · exact s.takeFault_frame f
  · exact s.retire_nopEntry_frame
  · exact s.load_frame d16

theorem StepFrame.regs_f {s t : State} (h : StepFrame s t) : t.regs.f = s.regs.f := by
  rw [h.regs]

theorem StepFrame.flag {s t : State} (h : StepFrame s t) (x : Flag) : t.flag x = s.flag x := by
  rw [State.flag, h.regs_f, State.flag]

theorem StepFrame.readReg_F {s t : State} (h : StepFrame s t) : t.readReg .F = s.readReg .F := by
  rw [State.readReg_F, h.regs_f, State.readReg_F]

theorem StepFrame.read {s t : State} (h : StepFrame s t) (a : Word) : t.read a = s.read a := by
  rw [State.read, h.router, State.read]

theorem exec_nop_next {s t : State} (h : exec .nop s = .next t) : t = s.retire nopEntry := by
  cases h
  rfl

theorem exec_ldBcD16_next {d16 : Word} {s t : State} (h : exec (.ldBcD16 d16) s = .next t) :
    t = (s.writePair .BC d16).retire ldBcD16Entry := by
  cases h
  rfl

theorem exec_unimplemented_next {op : Byte} {s t : State} (h : exec (.unimplemented op) s = .next t) :
    t = s.takeFault (.unimplementedOpcode op s.pc) := by
  cases h
  rfl

/-- LD BC,d16 leaves every register but B and C (R150). -/
theorem exec_ldBcD16_readReg {d16 : Word} {s t : State} (h : exec (.ldBcD16 d16) s = .next t) {r : Reg}
    (hb : r ≠ .B) (hc : r ≠ .C) : t.readReg r = s.readReg r := by
  rw [exec_ldBcD16_next h, State.retire_readReg, State.readReg_writePair_of_ne s d16 hb hc]

/-- Settles O40. -/
theorem instructionFrames : Obligations.InstructionFrames := by
  refine ⟨fun i s t h => ?all, fun s t h => ?nop, fun d16 s t h => ?load, fun op s t h => ?unimplemented⟩
  case all =>
    have frame := exec_frame h
    exact ⟨frame.read, fun id off => by rw [frame.router], by rw [frame.router], frame.sp, frame.flag, frame.readReg_F,
      frame.totalM, frame.totalT, frame.lifecycle⟩
  case nop =>
    rw [exec_nop_next h]
    exact ⟨fun r => rfl, rfl⟩
  case load =>
    refine ⟨fun r => exec_ldBcD16_readReg h, ?_⟩
    rw [exec_ldBcD16_next h, State.retire_run, State.writePair_run]
  case unimplemented =>
    rw [exec_unimplemented_next h]
    exact ⟨fun r => rfl, rfl, rfl, rfl⟩

end Sys2Proof.Machine
end

section
/-! Which faults a step, a transaction and a construction can raise (spec 60_exceptions R160 to R163); with them O41,
O42, O43 and O44. -/

namespace Sys2Proof.Machine

/-- A fetch fails at the opcode, or after the opcode of LD BC,d16 at the first operand byte in the hole (R161, R167). -/
theorem State.fetchInstr_error_cases {s : State} {f : Fault} (h : s.fetchInstr = .error f) :
    (InHole s.pc ∧ f = .unmappedAccess s.pc .read) ∨
      (s.read s.pc = .ok 0x01#8 ∧
        ((InHole (s.pc + 1#16) ∧ f = .unmappedAccess (s.pc + 1#16) .read) ∨
          (¬ InHole (s.pc + 1#16) ∧ InHole (s.pc + 2#16) ∧ f = .unmappedAccess (s.pc + 2#16) .read))) := by
  cases hread : s.read s.pc with
  | error g =>
    rw [State.fetchInstr_of_fault hread] at h
    cases h
    exact .inl (Router.read_error hread)
  | ok op =>
    obtain ⟨-, h'⟩ | ⟨-, d16, -, h'⟩ | ⟨rfl, g, himm, h'⟩ | ⟨-, h'⟩ := State.fetchInstr_of_opcode hread <;>
      rw [h'] at h <;> cases h
    refine .inr ⟨rfl, ?_⟩
    obtain first | ⟨⟨hi, first⟩, second⟩ := Router.read16_error himm
    · exact .inl (Router.read_error first)
    · rw [word_add_one_add_one] at second
      have mapped : ¬ InHole (s.pc + 1#16) := fun hole => by
        rw [Router.read_hole hole] at first
        cases first
      exact .inr ⟨mapped, Router.read_error second⟩

/-- A step that halts the session failed in its fetch, or fetched an opcode without an entry. -/
theorem step_halted_cases {s t : State} {f : Fault} (h : step s = .next t) (ht : t.run = .halted f) :
    s.fetchInstr = .error f ∨
      ∃ op, s.read s.pc = .ok op ∧ 2 ≤ op.toNat ∧ f = .unimplementedOpcode op s.pc := by
  obtain ⟨running, ⟨g, hf, rfl⟩ | ⟨-, rfl⟩ | ⟨d16, -, -, rfl⟩ | ⟨op, hread, hop, rfl⟩⟩ := step_next_cases h
  · cases ht
    exact .inl hf
  · exact absurd (running.symm.trans ht) (by simp)
  · exact absurd (running.symm.trans ht) (by simp)
  · cases ht
    exact .inr ⟨op, hread, hop, rfl⟩

/-- The two faults of a step (R161, R162). -/
theorem step_fault_kinds {s t : State} {f : Fault} (h : step s = .next t) (ht : t.run = .halted f) :
    (∃ a, InHole a ∧ f = .unmappedAccess a .read) ∨
      ∃ op : Byte, 2 ≤ op.toNat ∧ f = .unimplementedOpcode op s.pc := by
  obtain hf | ⟨op, -, hop, rfl⟩ := step_halted_cases h ht
  · obtain ⟨a, rfl, hole, -⟩ := State.fetchInstr_error hf
    exact .inl ⟨a, hole, rfl⟩
  · exact .inr ⟨op, hop, rfl⟩

theorem Router.write_error {r : Router} {a : Word} {v : Byte} {f : Fault} (h : r.write a v = .error f) :
    (InHole a ∧ f = .unmappedAccess a .write) ∨ (a.toNat < 0x8000 ∧ f = .readOnlyViolation a v) := by
  by_cases hole : InHole a
  · rw [Router.write_hole hole] at h
    cases h
    exact .inl ⟨hole, rfl⟩
  · by_cases low : a.toNat < 0x8000
    · rw [Router.write_readOnly v low] at h
      cases h
      exact .inr ⟨low, rfl⟩
    · obtain ⟨id, off, hd⟩ := decodeAddr_mapped (b := r.bootActive) hole
      rw [Router.write_high v hd (Nat.le_of_not_lt low)] at h
      cases h

theorem Router.read16_error_unmapped {r : Router} {a : Word} {f : Fault} (h : r.read16 a = .error f) :
    ∃ a', f = .unmappedAccess a' .read := by
  obtain first | ⟨-, second⟩ := Router.read16_error h
  · exact ⟨_, (Router.read_error first).2⟩
  · exact ⟨_, (Router.read_error second).2⟩

theorem construct_short {p : PowerOn} (h : p.cartImage.length < 0x0150) :
    construct p = .error (.cartridgeTooSmall p.cartImage.length) :=
  if_pos h

theorem construct_long {p : PowerOn} (h : 0x0150 ≤ p.cartImage.length) : ∃ s, construct p = .ok s :=
  ⟨_, if_neg (Nat.not_lt.2 h)⟩

theorem construct_error {p : PowerOn} {f : Fault} (h : construct p = .error f) :
    f = .cartridgeTooSmall p.cartImage.length := by
  unfold construct at h
  split at h <;> cases h
  rfl

theorem reload_short {s : State} {image : List Byte} (running : s.run = .running) (h : image.length < 0x0150) :
    reload image s = .next (s.takeFault (.cartridgeTooSmall image.length)) := by
  simp only [reload, running]
  exact if_pos h

theorem reload_long {s : State} {image : List Byte} (running : s.run = .running) (h : 0x0150 ≤ image.length) :
    reload image s = .next { s with router := s.router.install image } := by
  simp only [reload, running]
  exact if_neg (Nat.not_lt.2 h)

/-- What a transaction does to a session: nothing, or one of the four of R62, R181 and R205 in a running session. -/
theorem afterEvent_cases (s : State) (e : HostEvent) :
    afterEvent s e = s ∨ (s.run = .running ∧
      ((e = .runCycle ∧ ∃ t, step s = .next t ∧ afterEvent s e = { t.addTotals with lifecycle := .running }) ∨
        (e = .setBootActive false ∧ afterEvent s e = { s with router := { s.router with bootActive := false } }) ∨
        (∃ image, e = .reload image ∧ image.length < Config.minImageLength ∧
          afterEvent s e = s.takeFault (.cartridgeTooSmall image.length)) ∨
        ∃ image, e = .reload image ∧ Config.minImageLength ≤ image.length ∧
          afterEvent s e = { s with router := s.router.install image })) := by
  cases e with
  | runCycle =>
    obtain ⟨f, -, h⟩ | ⟨running, h⟩ := afterEvent_runCycle s
    · exact .inl h
    · exact .inr ⟨running, .inl ⟨rfl, h⟩⟩
  | setBootActive b =>
    obtain h | ⟨running, rfl, h⟩ := afterEvent_setBootActive s b
    · exact .inl h
    · exact .inr ⟨running, .inr (.inl ⟨rfl, h⟩)⟩
  | reload image =>
    obtain h | ⟨running, short, h⟩ | ⟨running, long, h⟩ := afterEvent_reload s image
    · exact .inl h
    · exact .inr ⟨running, .inr (.inr (.inl ⟨image, rfl, short, h⟩))⟩
    · exact .inr ⟨running, .inr (.inr (.inr ⟨image, rfl, long, h⟩))⟩

theorem step_not_readOnlyViolation {s t : State} (h : step s = .next t) (a : Word) (v : Byte) :
    t.run ≠ .halted (.readOnlyViolation a v) := by
  intro ht
  obtain ⟨a', -, hf⟩ | ⟨op, -, hf⟩ := step_fault_kinds h ht <;> cases hf

/-- No transaction of a running session raises ReadOnlyViolation: the host writes no memory (R160). -/
theorem afterEvent_not_readOnlyViolation {s : State} (e : HostEvent) (running : s.run = .running) (a : Word)
    (v : Byte) : (afterEvent s e).run ≠ .halted (.readOnlyViolation a v) := by
  obtain h | ⟨-, ⟨-, t, hstep, h⟩ | ⟨-, h⟩ | ⟨image, -, -, h⟩ | ⟨image, -, -, h⟩⟩ := afterEvent_cases s e <;> rw [h]
  · simp [running]
  · simpa using step_not_readOnlyViolation hstep a v
  · simp [running]
  · simp
  · simp [running]

/-- Settles O41: the inversion of each operation names the faults it can raise. -/
theorem readOnlyViolationOnlyFromWrites : Obligations.ReadOnlyViolationOnlyFromWrites := by
  refine ⟨fun r a v => Router.write_readOnly v, fun r a v a' v' h => ?write, fun r a a' v' => ⟨fun h => ?read,
    fun h => ?read16⟩, fun p a v h => ?construct, fun s e a v running => afterEvent_not_readOnlyViolation e running a v,
    fun s e a v low => ?halts, fun s t a v h => step_not_readOnlyViolation h a v, fun a v => rfl⟩
  case write =>
    obtain ⟨-, hf⟩ | ⟨low, hf⟩ := Router.write_error h <;> cases hf
    exact ⟨rfl, rfl, low⟩
  case read => cases (Router.read_error h).2
  case read16 =>
    obtain ⟨_, hf⟩ := Router.read16_error_unmapped h
    cases hf
  case construct => cases construct_error h
  case halts =>
    have refused : s.memWrite a v = .error (.readOnlyViolation a v) := by
      rw [State.memWrite, Router.write_readOnly v low]
    exact State.execute_error refused

/-- Settles O42. -/
theorem unmappedAccessOnlyFromTheHole : Obligations.UnmappedAccessOnlyFromTheHole := by
  refine ⟨fun s t a k h ht => ?onlyIf, fun s running hole => ⟨_, step_of_hole running hole, rfl⟩,
    fun s running hread holes => ?operand, fun r a v => Router.write_hole, fun a k => rfl⟩
  case onlyIf =>
    obtain hf | ⟨op, -, -, hf⟩ := step_halted_cases h ht
    · obtain ⟨hole, hf⟩ | ⟨hread, ⟨hole, hf⟩ | ⟨mapped, hole, hf⟩⟩ := State.fetchInstr_error_cases hf <;> cases hf
      · exact ⟨rfl, hole, .inl rfl⟩
      · exact ⟨rfl, hole, .inr ⟨hread, .inl rfl⟩⟩
      · exact ⟨rfl, hole, .inr ⟨hread, .inr ⟨rfl, mapped⟩⟩⟩
    · cases hf
  case operand =>
    by_cases first : InHole (s.pc + 1#16)
    · exact ⟨_, _, step_of_load_hole_first running hread first, first, rfl⟩
    · have second : InHole (s.pc + 2#16) := holes.resolve_left first
      exact ⟨_, _, step_of_load_hole_second running hread first second, second, rfl⟩

theorem step_unimplementedOpcode {s t : State} {op : Byte} {p : Word} (h : step s = .next t) :
    t.run = .halted (.unimplementedOpcode op p) ↔ s.read s.pc = .ok op ∧ dispatchTable op = none ∧ p = s.pc := by
  constructor
  · intro ht
    obtain hf | ⟨op', hread, hop, hf⟩ := step_halted_cases h ht
    · obtain ⟨a, hf', -⟩ := State.fetchInstr_error hf
      cases hf'
    · cases hf
      exact ⟨hread, dispatchTable_unimplemented hop, rfl⟩
  · rintro ⟨hread, hop, rfl⟩
    rw [step_of_unimplemented (step_next_running h) hread ((dispatchTable_none op).1 hop)] at h
    cases h
    rfl

/-- Settles O43. -/
theorem unimplementedOpcodeExactlyWithoutEntry : Obligations.UnimplementedOpcodeExactlyWithoutEntry :=
  ⟨fun _ _ _ _ => step_unimplementedOpcode, fun _ _ _ _ h ht => ⟨step_halted_eq h ht, step_halted ht⟩,
    dispatchTable_none, fun _ _ => rfl⟩

/-- Settles O44. -/
theorem shortCartridgesAreRefused : Obligations.ShortCartridgesAreRefused := by
  refine ⟨fun p => construct_short, fun p => construct_long, fun s image => reload_short,
    fun s image running long => ⟨_, reload_long running long, running⟩, fun s t n h ht => ?_, fun n => rfl⟩
  obtain ⟨a, -, hf⟩ | ⟨op, -, hf⟩ := step_fault_kinds h ht <;> cases hf

end Sys2Proof.Machine
end

section
/-! Sessions: what a construction starts with and what every transaction keeps (spec 10_state R22, R24, R25, R27, R35,
R50); with them O1, O2, O3, O6, O7, O8 and O23. -/

namespace Sys2Proof.Machine

/-- What holds after every construction and is kept by every transaction holds in every session. -/
theorem Reachable.induction {P : State → Prop} (start : ∀ p s, construct p = .ok s → P s)
    (keeps : ∀ s e, P s → P (afterEvent s e)) {s : State} (h : Reachable s) : P s := by
  obtain ⟨p, s₀, events, built, rfl⟩ := h
  exact runEvents_induction keeps events s₀ (start p s₀ built)

/-- Settles O1. -/
theorem constructionGivesResetValues : Obligations.ConstructionGivesResetValues := by
  refine ⟨fun p => construct_short, fun p long => ?_⟩
  obtain ⟨s, built⟩ := construct_long long
  obtain ⟨-, regs, pc, sp, lastM, lastT, run, totalM, totalT, lifecycle, active⟩ := construct_ok built
  refine ⟨s, built, regs, fun r => ?reg, fun q => ?pair, fun x => ?flag, pc, sp, lastM, lastT, run, active,
    fun id off _ => construct_byteAt built id off, totalM, totalT, lifecycle⟩
  case reg =>
    rw [State.readReg, regs]
    cases r <;> rfl
  case pair =>
    rw [State.readPair, State.readReg, State.readReg, regs]
    cases q <;> rfl
  case flag =>
    rw [State.flag, regs]
    cases x <;> rfl

theorem Memory.ofList_vector_replicate (n : Nat) : Memory.ofList (Vector.replicate n 0x00#8).toList = [] := by
  rw [Vector.toList_replicate]
  exact Memory.ofListFrom_replicate_unlisted 0 n

theorem Cartridge.ofImage_replicate (n : Nat) :
    Cartridge.ofImage (List.replicate n 0x00#8) = { length := n, bytes := [] } := by
  rw [Cartridge.ofImage, List.length_replicate]
  exact congrArg _ (Memory.ofListFrom_replicate_unlisted 0 n)

/-- Settles O2: a sequence of unlisted bytes is the empty list. -/
theorem resetIsTheBlankConstruction : Obligations.ResetIsTheBlankConstruction := by
  have long : ¬ PowerOn.blank.cartImage.length < Config.minImageLength := by simp [PowerOn.blank]
  rw [Obligations.ResetIsTheBlankConstruction, construct, if_neg long]
  simp only [PowerOn.blank, Memory.ofList_vector_replicate, Cartridge.ofImage_replicate]
  rfl

/-- Every transaction leaves `sp` and every register but B and C as it was (R22, R27). -/
theorem afterEvent_frame (s : State) (e : HostEvent) :
    (afterEvent s e).sp = s.sp ∧
      (afterEvent s e).regs = { s.regs with b := (afterEvent s e).regs.b, c := (afterEvent s e).regs.c } := by
  obtain h | ⟨-, ⟨-, t, hstep, h⟩ | ⟨-, h⟩ | ⟨image, -, -, h⟩ | ⟨image, -, -, h⟩⟩ := afterEvent_cases s e <;> rw [h]
  · exact ⟨rfl, rfl⟩
  · have frame := step_frame hstep
    exact ⟨t.addTotals_sp.trans frame.sp, by simpa using frame.regs⟩
  · exact ⟨rfl, rfl⟩
  · exact ⟨rfl, rfl⟩
  · exact ⟨rfl, rfl⟩

theorem Reachable.sp {s : State} (h : Reachable s) : s.sp = 0x0000#16 := by
  refine h.induction (P := fun s => s.sp = 0x0000#16) (fun p s built => ?_) fun s e ih => ?_
  · obtain ⟨-, -, -, sp, -⟩ := construct_ok built
    exact sp
  · obtain ⟨sp, -⟩ := afterEvent_frame s e
    exact sp.trans ih

/-- In every session all registers but B and C hold 0 (R22, R35). -/
theorem Reachable.regs {s : State} (h : Reachable s) :
    s.regs = { a := 0, f := 0, b := s.regs.b, c := s.regs.c, d := 0, e := 0, h := 0, l := 0 } := by
  refine h.induction (P := fun s => s.regs = ⟨0, 0, s.regs.b, s.regs.c, 0, 0, 0, 0⟩) (fun p s built => ?_)
    fun s e ih => ?_
  · obtain ⟨-, regs, -⟩ := construct_ok built
    rw [regs]
  · obtain ⟨-, frame⟩ := afterEvent_frame s e
    rw [frame, ih]

theorem Reachable.regs_f {s : State} (h : Reachable s) : s.regs.f = 0x00#8 := by
  rw [h.regs]
  rfl

/-- Settles O3. -/
theorem flagRegisterLowNibbleIsHardwired : Obligations.FlagRegisterLowNibbleIsHardwired := by
  refine ⟨fun s v => rfl, fun s w => rfl, fun s => maskF_and_low s.regs.f, fun s v => ?_, fun s reachable => ?_⟩
  · rw [State.readReg_writeReg, if_pos rfl, if_pos rfl, maskF]
  · rw [reachable.regs_f]
    rfl

/-- Settles O6: the load overwrites B and C, and no meaning reads the register file. -/
theorem onlyLoadWritesRegistersAndOnlyBC : Obligations.OnlyLoadWritesRegistersAndOnlyBC := by
  refine ⟨fun i s t h notLoad => ?others, fun d16 s t h r => exec_ldBcD16_readReg h, fun i s g t h => ?unread,
    fun s r v hr => ?full, fun s reachable r hb hc => ?session⟩
  case others =>
    cases i with
    | nop => rw [exec_nop_next h, State.retire_regs]
    | ldBcD16 d16 => exact absurd rfl (notLoad d16)
    | unimplemented op => rw [exec_unimplemented_next h, State.takeFault_regs]
  case unread =>
    cases i with
    | nop =>
      cases h
      exact ⟨_, rfl, rfl, fun d16 load => by cases load⟩
    | ldBcD16 d16 =>
      cases h
      exact ⟨_, rfl, rfl, fun _ _ => ⟨rfl, rfl⟩⟩
    | unimplemented op =>
      cases h
      exact ⟨_, rfl, rfl, fun d16 load => by cases load⟩
  case full => rw [State.readReg_writeReg, if_pos rfl, if_neg hr]
  case session =>
    cases r with
    | B => exact absurd rfl hb
    | C => exact absurd rfl hc
    | F => rw [State.readReg_F, reachable.regs_f]; rfl
    | A | D | E | H | L => rw [State.readReg, reachable.regs]; rfl

/-- Settles O7: F is in the frame of every instruction, and no meaning reads it. -/
theorem noInstructionTouchesAFlag : Obligations.NoInstructionTouchesAFlag := by
  refine ⟨fun i s t h => ⟨(exec_frame h).regs_f, (exec_frame h).flag⟩, fun i s v t h => ?_, fun s reachable x => ?_⟩
  · cases i <;> cases h <;> rfl
  · rw [State.flag, reachable.regs_f]
    cases x <;> rfl

/-- Settles O8: `sp` is in the frame of every instruction, and no meaning reads it. -/
theorem stackPointerIsUntouched : Obligations.StackPointerIsUntouched := by
  refine ⟨fun i s t h => (exec_frame h).sp, fun i s v t h => ?_, fun s => Reachable.sp⟩
  cases i <;> cases h <;> rfl

/-- No transaction changes a byte of a writable store (R50). -/
theorem afterEvent_byteAt (s : State) (e : HostEvent) {id : StoreId} (writable : id.writable = true) (off : Nat) :
    (afterEvent s e).router.byteAt id off = s.router.byteAt id off := by
  obtain h | ⟨-, ⟨-, t, hstep, h⟩ | ⟨-, h⟩ | ⟨image, -, -, h⟩ | ⟨image, -, -, h⟩⟩ := afterEvent_cases s e <;> rw [h]
  · show t.addTotals.router.byteAt id off = _
    rw [State.addTotals_router, step_router hstep]
  · cases id <;> rfl
  · rw [State.takeFault_router]
  · refine s.router.byteAt_cart_congr ?_ ?_ <;> (rintro rfl; cases writable)

/-- Settles O23: what every transaction keeps, a session keeps from its construction on. -/
theorem ramKeepsItsFirstContents : Obligations.RamKeepsItsFirstContents := by
  refine ⟨fun s t h id off _ => by rw [step_router h], fun s e id off writable => afterEvent_byteAt s e writable off,
    fun p s events built id off writable _ => ?_⟩
  exact runEvents_induction (P := fun t => t.router.byteAt id off = p.initialByte id off)
    (fun t e ht => (afterEvent_byteAt t e writable off).trans ht) events s (construct_byteAt built id off)

end Sys2Proof.Machine
end

section
/-! The host's transactions: a halt is final, and what `set_boot_active`, `reload` and `run_cycle` change (spec
10_state R31, R36, 60_exceptions R166, R181, 70_reset_and_hazards R203, R212); with them O11, O12, O13, O46, O47, O48
and O49. -/

namespace Sys2Proof.Machine

theorem afterEvent_halted {s : State} {f : Fault} (h : s.run = .halted f) (e : HostEvent) : afterEvent s e = s := by
  obtain h' | ⟨running, -⟩ := afterEvent_cases s e
  · exact h'
  · rw [h] at running
    cases running

/-- Settles O11. -/
theorem haltIsFinal : Obligations.HaltIsFinal := by
  refine fun s f h => ⟨step_halted h, ?_, fun image => ?_, List.foldl_fixed' (afterEvent_halted h)⟩
  · simp only [runCycle, step_halted h]
  · simp only [reload, h]

theorem setBootActive_false {s : State} (h : s.run = .running) :
    setBootActive false s = .next { s with router := { s.router with bootActive := false } } := by
  simp only [setBootActive, h]
  rfl

theorem setBootActive_true {s : State} (h : s.run = .running) : setBootActive true s = .next s := by
  simp only [setBootActive, h, Router.setBootActive, if_true]
  rw [← h]

/-- A transaction keeps `boot_active`, or is the `set_boot_active(false)` that clears it (R31). -/
theorem afterEvent_bootActive (s : State) (e : HostEvent) :
    (afterEvent s e).router.bootActive = s.router.bootActive ∨
      (e = .setBootActive false ∧ s.router.bootActive = true ∧ (afterEvent s e).router.bootActive = false) := by
  obtain h | ⟨-, ⟨-, t, hstep, h⟩ | ⟨he, h⟩ | ⟨image, -, -, h⟩ | ⟨image, -, -, h⟩⟩ := afterEvent_cases s e <;> rw [h]
  · exact .inl rfl
  · refine .inl ?_
    show t.addTotals.router.bootActive = _
    rw [State.addTotals_router, step_router hstep]
  · cases active : s.router.bootActive with
    | true => exact .inr ⟨he, rfl, rfl⟩
    | false => exact .inl rfl
  · exact .inl rfl
  · exact .inl rfl

theorem decodeAddr_overlay (a : Word) : decodeAddr true a ≠ decodeAddr false a ↔ a.toNat < 0x0100 := by
  by_cases low : a.toNat < 0x0100
  · simp [decodeAddr_low low, low]
  · simp [decodeAddr_high (b := true) (b' := false) (Nat.le_of_not_lt low), low]

/-- Settles O12. -/
theorem bootActiveIsOneWay : Obligations.BootActiveIsOneWay := by
  refine ⟨fun s running => ⟨setBootActive_false running, setBootActive_true running⟩, afterEvent_bootActive,
    fun i s t h => by rw [exec_router h], fun r r' a v => Router.write_bootActive, fun events s => ?_,
    decodeAddr_overlay⟩
  refine runEvents_induction (P := fun t => t.router.bootActive = false) (fun t e off => ?_) events s
  obtain kept | ⟨-, -, cleared⟩ := afterEvent_bootActive t e
  · exact kept.trans off
  · exact cleared

/-- Settles O13. -/
theorem reloadChangesOnlyTheRomWindows : Obligations.ReloadChangesOnlyTheRomWindows :=
  fun _ image running => ⟨fun long => ⟨Cartridge.ofImage image, reload_long running long,
    fun w off _ => Cartridge.byteAt_ofImage image w off⟩, reload_short running⟩

theorem State.addTotals_of_fault {s : State} {f : Fault} (h : s.stepResult = .error f) : s.addTotals = s := by
  simp only [State.addTotals, h]

/-- A sum of a 64-bit total and a byte, modulo 2^64. -/
theorem total_add_toNat (total : Total) (cost : Byte) :
    (total + cost.setWidth 64).toNat = (total.toNat + cost.toNat) % 2 ^ 64 := by
  rw [BitVec.toNat_add, BitVec.toNat_setWidth, Nat.add_mod_mod]

theorem runCycle_halted {s : State} {f : Fault} (h : step s = .fault f) : runCycle s = .fault f := by
  simp only [runCycle, h]

/-- Settles O46. -/
theorem runCycleAddsTheStepCost : Obligations.RunCycleAddsTheStepCost := by
  refine ⟨fun s t cost h result => ⟨_, runCycle_of_step h, ?_⟩, fun s t f h result => ⟨_, runCycle_of_step h, ?_⟩,
    fun s f => runCycle_halted⟩
  · rw [State.addTotals_of_stepResult result, ← (step_frame h).totalM, ← (step_frame h).totalT]
    exact ⟨total_add_toNat t.totalM cost.machine, total_add_toNat t.totalT cost.clock, rfl⟩
  · rw [State.addTotals_of_fault result]
    exact ⟨result, rfl, (step_frame h).totalM, (step_frame h).totalT⟩

/-- A step records a clock cost of 4 times the machine cost, or leaves the counters (R104, R180). -/
theorem step_keeps_counter_ratio {s t : State} (ratio : s.lastT = 4#8 * s.lastM) (h : step s = .next t) :
    t.lastT = 4#8 * t.lastM := by
  obtain ⟨f, rfl⟩ | ⟨-, -, rfl⟩ | ⟨-, -, d16, -, rfl⟩ := step_fault_or_retire h
  · exact ratio
  · rfl
  · rfl

/-- What the step of a `run_cycle` adds to the totals: machine cycles, and 4 times as many clock cycles. -/
theorem step_addTotals {s t : State} (h : step s = .next t) :
    ∃ m : Total, t.addTotals.totalM = s.totalM + m ∧ t.addTotals.totalT = s.totalT + 4#64 * m := by
  have running : s.run = .running := step_next_running h
  obtain ⟨f, rfl⟩ | ⟨-, -, rfl⟩ | ⟨-, -, d16, -, rfl⟩ := step_fault_or_retire h
  · exact ⟨0#64, (BitVec.add_zero _).symm, (BitVec.add_zero _).symm⟩
  · rw [State.addTotals_of_stepResult (State.retire_stepResult nopEntry running)]
    exact ⟨1#64, rfl, rfl⟩
  · rw [State.addTotals_of_stepResult (State.retire_stepResult ldBcD16Entry ((s.writePair_run .BC d16).trans running))]
    exact ⟨3#64, rfl, rfl⟩

theorem afterEvent_keeps_ratio (s : State) (e : HostEvent) (totals : s.totalT = 4#64 * s.totalM)
    (counters : s.lastT = 4#8 * s.lastM) :
    (afterEvent s e).totalT = 4#64 * (afterEvent s e).totalM ∧
      (afterEvent s e).lastT = 4#8 * (afterEvent s e).lastM := by
  obtain h | ⟨-, ⟨-, t, hstep, h⟩ | ⟨-, h⟩ | ⟨image, -, -, h⟩ | ⟨image, -, -, h⟩⟩ := afterEvent_cases s e <;> rw [h]
  · exact ⟨totals, counters⟩
  · obtain ⟨m, hM, hT⟩ := step_addTotals hstep
    refine ⟨?_, by simpa using step_keeps_counter_ratio counters hstep⟩
    show t.addTotals.totalT = 4#64 * t.addTotals.totalM
    rw [hM, hT, totals, BitVec.mul_add]
  · exact ⟨totals, counters⟩
  · exact ⟨totals, counters⟩
  · exact ⟨totals, counters⟩

theorem construct_ratio {p : PowerOn} {s : State} (h : construct p = .ok s) :
    s.totalT = 4#64 * s.totalM ∧ s.lastT = 4#8 * s.lastM := by
  obtain ⟨-, -, -, -, lastM, lastT, -, totalM, totalT, -, -⟩ := construct_ok h
  rw [totalM, totalT, lastM, lastT]
  exact ⟨rfl, rfl⟩

/-- Settles O47. -/
theorem clockTotalIsFourTimesMachineTotal : Obligations.ClockTotalIsFourTimesMachineTotal :=
  ⟨fun _ _ => construct_ratio, fun _ _ => step_keeps_counter_ratio, afterEvent_keeps_ratio,
    fun _ => Reachable.induction (fun _ _ => construct_ratio)
      fun s e ⟨totals, counters⟩ => afterEvent_keeps_ratio s e totals counters⟩

theorem runCycle_running {s : State} (h : s.run = .running) : ∃ t, runCycle s = .next t ∧ t.lifecycle = .running := by
  obtain ⟨t, hstep⟩ := step_running h
  exact ⟨_, runCycle_of_step hstep, rfl⟩

/-- A transaction keeps the lifecycle, or is the `run_cycle` that enters Running (R203). -/
theorem afterEvent_lifecycle (s : State) (e : HostEvent) :
    (afterEvent s e).lifecycle = s.lifecycle ∨ (e = .runCycle ∧ (afterEvent s e).lifecycle = .running) := by
  obtain h | ⟨-, ⟨he, t, hstep, h⟩ | ⟨-, h⟩ | ⟨image, -, -, h⟩ | ⟨image, -, -, h⟩⟩ := afterEvent_cases s e <;> rw [h]
  · exact .inl rfl
  · exact .inr ⟨he, rfl⟩
  · exact .inl rfl
  · exact .inl rfl
  · exact .inl rfl

/-- Settles O48. -/
theorem lifecycleOnlyGoesForward : Obligations.LifecycleOnlyGoesForward := by
  refine ⟨fun p f h => ?new_fails, fun p s h => ?new_succeeds, fun s => runCycle_running, fun s e he => ?others,
    fun s events => ?running, fun s events loaded => ?loaded,
    fun s running => ⟨_, setBootActive_false running, rfl, rfl⟩⟩
  case new_fails => rw [h, lifecycleAfterNew]
  case new_succeeds =>
    obtain ⟨-, -, -, -, -, -, -, -, -, lifecycle, active⟩ := construct_ok h
    rw [h]
    exact ⟨lifecycle, active⟩
  case others =>
    obtain kept | ⟨runs, -⟩ := afterEvent_lifecycle s e
    · exact kept
    · exact absurd runs he
  case running =>
    refine runEvents_induction (P := fun t => t.lifecycle = .running) (fun t e running => ?_) events s
    obtain kept | ⟨-, entered⟩ := afterEvent_lifecycle t e
    · exact kept.trans running
    · exact entered
  case loaded =>
    refine runEvents_induction (P := fun t => t.lifecycle ≠ .unloaded) (fun t e notUnloaded => ?_) events s
      (by simp [loaded])
    obtain kept | ⟨-, entered⟩ := afterEvent_lifecycle t e
    · rw [kept]
      exact notUnloaded
    · simp [entered]

/-- Where the overlay does not stand, the lower half of the cartridge space is bank 0 (R51, R52). -/
theorem decodeAddr_bank0 {b : Bool} {a : Word} (h : 0x0100 ≤ a.toNat ∨ b = false) (h' : a.toNat < 0x4000) :
    decodeAddr b a = .store .rom0 a.toNat := by
  by_cases low : a.toNat < 0x0100
  · have off : b = false := h.resolve_left (by omega)
    rw [decodeAddr_low low, off]
    rfl
  · exact decodeAddr_rom0 (by omega) h'

/-- Settles O49: neither input moves `pc`, and the next read decodes with the new flag or shows the new image. -/
theorem hostInputsActOnTheNextFetch : Obligations.HostInputsActOnTheNextFetch := by
  refine ⟨fun s t h running low => ?overlay, fun s t image running long h off bank => ?rom0,
    fun s t image running long h low high => ?romx⟩
  case overlay =>
    rw [setBootActive_false running] at h
    cases h
    exact ⟨rfl, Router.read_low low⟩
  case rom0 =>
    rw [reload_long running long] at h
    cases h
    exact ⟨rfl, (Router.read_store (r := s.router.install image) (decodeAddr_bank0 off bank)).trans
      (congrArg _ (Cartridge.byteAt_ofImage image .rom0 s.pc.toNat))⟩
  case romx =>
    rw [reload_long running long] at h
    cases h
    exact ⟨rfl, (Router.read_store (r := s.router.install image) (decodeAddr_romx low high)).trans
      (congrArg _ (Cartridge.byteAt_ofImage image .romx (s.pc.toNat - 0x4000)))⟩

end Sys2Proof.Machine
end

section
/-! The invariant of a session, kept by every step, transaction and memory operation; with it O50 to O53. -/

namespace Sys2Proof.Machine

/-- Settles O50. -/
theorem resetMeetsTheInvariant : Obligations.ResetMeetsTheInvariant :=
  ⟨rfl, reset_stores_wf, List.mem_cons_self, trivial, by decide⟩

theorem State.Inv.takeFault {s : State} (h : s.Inv) {f : Fault} (legal : f.Legal s.pc) : (s.takeFault f).Inv :=
  ⟨h.flags, h.stores, h.counters, legal, h.lifecycle⟩

/-- Retiring an entry of the dispatch table in a running session keeps the invariant. -/
theorem State.Inv.retire {s : State} (h : s.Inv) {e : Entry} (running : s.run = .running)
    (cost : (e.cost.machine, e.cost.clock) ∈ [((0 : Byte), (0 : Byte)), (1, 4), (3, 12)]) : (s.retire e).Inv := by
  refine ⟨h.flags, h.stores, cost, ?_, h.lifecycle⟩
  rw [State.retire_run, running]
  trivial

theorem State.Inv.writePair_BC {s : State} (h : s.Inv) (d16 : Word) : (s.writePair .BC d16).Inv :=
  ⟨h.flags, h.stores, h.counters, h.runState, h.lifecycle⟩

theorem State.Inv.withRouter {s : State} (h : s.Inv) {r : Router} (wf : r.wf = true) :
    ({ s with router := r } : State).Inv :=
  ⟨h.flags, wf, h.counters, h.runState, h.lifecycle⟩

theorem step_inv {s t : State} (h : s.Inv) (hstep : step s = .next t) : t.Inv := by
  obtain ⟨running, ⟨f, hf, rfl⟩ | ⟨-, rfl⟩ | ⟨d16, -, -, rfl⟩ | ⟨op, -, hop, rfl⟩⟩ := step_next_cases hstep
  · obtain ⟨a, rfl, hole, -⟩ := State.fetchInstr_error hf
    exact h.takeFault hole
  · exact h.retire running (by decide)
  · exact (h.writePair_BC d16).retire ((s.writePair_run .BC d16).trans running) (by decide)
  · exact h.takeFault ⟨hop, rfl⟩

/-- Settles O51. -/
theorem stepKeepsTheInvariant : Obligations.StepKeepsTheInvariant := fun _ _ => step_inv

theorem State.Inv.addTotals_running {s : State} (h : s.Inv) :
    ({ s.addTotals with lifecycle := .running } : State).Inv := by
  refine ⟨?_, ?_, ?_, ?_, by simp⟩
  · simpa using h.flags
  · simpa using h.stores
  · simpa using h.counters
  · simpa using h.runState

theorem afterEvent_inv {s : State} (h : s.Inv) (e : HostEvent) : (afterEvent s e).Inv := by
  obtain h' | ⟨-, ⟨-, t, hstep, h'⟩ | ⟨-, h'⟩ | ⟨image, -, short, h'⟩ | ⟨image, -, long, h'⟩⟩ :=
      afterEvent_cases s e <;>
    rw [h']
  · exact h
  · exact (step_inv h hstep).addTotals_running
  · exact h.withRouter h.stores
  · exact h.takeFault short
  · exact h.withRouter (Router.install_wf h.stores long)

theorem Memory.ofList_vector_wf {n : Nat} (v : Vector Byte n) : Memory.wf n (Memory.ofList v.toList) = true :=
  Memory.ofList_wf (Nat.le_of_eq v.length_toList)

theorem construct_wf {p : PowerOn} {s : State} (h : construct p = .ok s) : s.router.wf = true := by
  obtain ⟨long, -⟩ := construct_ok h
  have image : Memory.wf p.cartImage.length (Memory.ofList p.cartImage) = true := Memory.ofList_wf (Nat.le_refl _)
  unfold construct at h
  split at h
  · cases h
  · cases h
    simp only [Router.wf, StoreId.size, Cartridge.ofImage, Memory.ofList_vector_wf, image, long, decide_true,
      Bool.and_self]

theorem construct_inv {p : PowerOn} {s : State} (h : construct p = .ok s) : s.Inv := by
  obtain ⟨-, regs, -, -, lastM, lastT, run, -, -, lifecycle, -⟩ := construct_ok h
  refine ⟨?_, construct_wf h, ?_, ?_, ?_⟩
  · rw [regs]
    rfl
  · rw [lastM, lastT]
    exact List.mem_cons_self
  · rw [run]
    trivial
  · simp [lifecycle]

/-- Settles O52. -/
theorem sessionsKeepTheInvariant : Obligations.SessionsKeepTheInvariant :=
  ⟨fun _ e h => afterEvent_inv h e,
    fun _ => Reachable.induction (fun _ _ => construct_inv) fun _ e h => afterEvent_inv h e⟩

theorem Router.writeAll_wf {writes : List (Word × Byte)} {r r' : Router} (wf : r.wf = true)
    (h : r.writeAll writes = .ok r') : r'.wf = true := by
  induction writes generalizing r with
  | nil => cases h; exact wf
  | cons w rest ih =>
    obtain ⟨r₁, hw, hrest⟩ := Router.writeAll_cons_ok h
    exact ih (Router.write_wf wf hw) hrest

/-- Settles O53. -/
theorem memoryOperationsKeepTheForm : Obligations.MemoryOperationsKeepTheForm := by
  refine ⟨fun s t a v h hw => ?_, fun s n w h => ?_, fun writes r r' => Router.writeAll_wf⟩
  · obtain ⟨written, frame⟩ := State.memWrite_ok hw
    rw [frame]
    exact h.withRouter (Router.write_wf h.stores written)
  · exact ⟨h.flags, Router.place_wf h.stores s.pc (tableInstrBytes n w), h.counters, trivial, h.lifecycle⟩

end Sys2Proof.Machine
end

section
/-! What the overlay hides has no influence: a simulation between two sessions that differ in the image (spec
20_memory R52); with it O54. -/

namespace Sys2Proof.Machine

/-- The session with another cartridge image installed. -/
def State.withCart (s : State) (c : Cartridge) : State := { s with router := { s.router with cart := c } }

/-- The fetch depends on `pc` and on what memory reads only. -/
theorem State.fetchInstr_congr {s t : State} (pc : t.pc = s.pc) (same : SameReads s.router t.router) :
    t.fetchInstr = s.fetchInstr := by
  have read (a : Word) : t.read a = s.read a := (same a).symm
  have read16 (a : Word) : t.read16 a = s.read16 a := by
    simp only [State.read16, Router.read16, same a, same (a + 1#16)]
  simp only [State.fetchInstr, State.immediate16, pc, read, read16]

/-- The meanings do not look at the image. -/
theorem exec_withCart {i : Instr} {s t : State} (c : Cartridge) (h : exec i s = .next t) :
    exec i (s.withCart c) = .next (t.withCart c) := by
  cases i <;> cases h <;> rfl

theorem step_withCart {s t : State} {c : Cartridge} (same : SameReads s.router (s.withCart c).router)
    (h : step s = .next t) : step (s.withCart c) = .next (t.withCart c) := by
  have running : s.run = .running := step_next_running h
  have fetch : (s.withCart c).fetchInstr = s.fetchInstr := State.fetchInstr_congr rfl same
  cases hf : s.fetchInstr with
  | error f =>
    rw [step_of_fetch_fault running hf] at h
    cases h
    exact step_of_fetch_fault running (fetch.trans hf)
  | ok i =>
    rw [step_of_fetchInstr running hf] at h
    exact (step_of_fetchInstr (s := s.withCart c) running (fetch.trans hf)).trans (exec_withCart c h)

theorem State.addTotals_withCart (s : State) (c : Cartridge) : (s.withCart c).addTotals = s.addTotals.withCart c := by
  have result : (s.withCart c).stepResult = s.stepResult := rfl
  cases h : s.stepResult with
  | ok cost =>
    rw [State.addTotals_of_stepResult h, State.addTotals_of_stepResult (result.trans h)]
    rfl
  | error f => rw [State.addTotals_of_fault h, State.addTotals_of_fault (result.trans h)]

/-- One `run_cycle` of the two sessions: they stay as far apart as they were. -/
theorem afterEvent_runCycle_withCart {s : State} {c : Cartridge} (same : SameReads s.router (s.withCart c).router) :
    afterEvent (s.withCart c) .runCycle = (afterEvent s .runCycle).withCart c := by
  cases hr : s.run with
  | halted f => rw [afterEvent_halted hr, afterEvent_halted (s := s.withCart c) hr]
  | running =>
    obtain ⟨t, hstep⟩ := step_running hr
    simp only [afterEvent, transact, runCycle_of_step hstep, runCycle_of_step (step_withCart same hstep),
      State.addTotals_withCart]
    rfl

theorem afterEvent_runCycle_router (s : State) : (afterEvent s .runCycle).router = s.router := by
  obtain ⟨f, -, h⟩ | ⟨-, t, hstep, h⟩ := afterEvent_runCycle s <;> rw [h]
  exact t.addTotals_router.trans (step_router hstep)

/-- The simulation: no `run_cycle` changes the router, so the two sessions read alike before each of them. -/
theorem runEvents_runCycle_withCart {s : State} {c : Cartridge} (same : SameReads s.router { s.router with cart := c })
    (n : Nat) :
    runEvents (List.replicate n .runCycle) (s.withCart c) = (runEvents (List.replicate n .runCycle) s).withCart c := by
  induction n generalizing s with
  | zero => rfl
  | succ n ih =>
    calc runEvents (List.replicate n .runCycle) (afterEvent (s.withCart c) .runCycle)
      _ = runEvents (List.replicate n .runCycle) ((afterEvent s .runCycle).withCart c) := by
        rw [afterEvent_runCycle_withCart same]
      _ = (runEvents (List.replicate n .runCycle) (afterEvent s .runCycle)).withCart c :=
        ih (by rw [afterEvent_runCycle_router]; exact same)

/-- Settles O54: under the overlay the two sessions read alike. -/
theorem hiddenBankBytesDoNotInfluenceSteps : Obligations.HiddenBankBytesDoNotInfluenceSteps :=
  fun _ _ n active agree => runEvents_runCycle_withCart (Router.sameReads_hidden active agree) n

end Sys2Proof.Machine
end
